-- ==== Sys2Proof/Word.lean ====
section
/-! DEFINITION. The word types: a bit sequence of any length, and the fixed widths the spec gives its values.

A sequence's FIRST bit, `s[0]`, is the bit the DES standard numbers 1 and the most significant bit when the value is
written as a number (spec 00_scope.md R10, R11; 20_memory.md R62). A value of a fixed width `w` is a `BitVec w`; its
bit at the spec's 0-based index `i` is `x.getMsbD i`. A stream, whose length varies, is a list of bits, first bit
first. -/

namespace Sys2Proof

/-- A single 0 or 1 (R10). -/
abbrev Bit := Bool

/-- A bit sequence of any length, first bit first (R10): the contents of DIN and DOUT (R30). -/
abbrev Bits := List Bit

/-- A command word (R90). -/
abbrev Byte := BitVec 8

/-- A 64-bit value: a block, a key, a chaining value (R7). -/
abbrev Block := BitVec 64

/-- A 48-bit round subkey (R7, R22). -/
abbrev Subkey := BitVec 48

/-- A 32-bit Feistel half (R7, R25). -/
abbrev Half := BitVec 32

/-- A 28-bit key-schedule half (R7, R24). -/
abbrev KeyHalf := BitVec 28

/-- The subkey register file K[0..15] (R22). -/
abbrev SubkeySet := Vector Subkey 16

end Sys2Proof
end

