-- ==== Sys2Proof/Syntax.lean ====
section
/-! DEFINITION. The syntax, whole: the 24 commands (30_encoding.md R97), the fields of a command word (R90), the
mnemonics (R100), and the host's transactions (10_state.md R35; the lines of a host script, R101). -/

namespace Sys2Proof

/-- One constructor per row of the opcode table (R97). No command carries an operand: the data operand is always the
whole of DIN, and every other operand is implicit (R95). -/
inductive Instr where
  | permIp | permFp | permE | permP | permPc1 | permPc2 | sbox
  | keygen | keyclr
  | blkEnc | blkDec
  | xfEcbEnc | xfCbcEnc | xfCfbEnc | xfOfbEnc | xfCtrEnc
  | xfEcbDec | xfCbcDec | xfCfbDec | xfOfbDec | xfCtrDec
  | pad | unpad | mov
deriving DecidableEq, Repr

/-- The direction flag of the block engine and of the modes (R93). -/
inductive Direction where
  | enc | dec
deriving DecidableEq, Repr

/-- The three fields of a command word: GRP = c[7:5], DIR = c[4], SEL = c[3:0] (R90). -/
structure Fields where
  grp : BitVec 3
  dir : BitVec 1
  sel : BitVec 4
deriving DecidableEq, Repr

/-- The mnemonic of each command (R100). -/
def Instr.mnemonic : Instr → String
  | .permIp   => "PERM.IP"
  | .permFp   => "PERM.FP"
  | .permE    => "PERM.E"
  | .permP    => "PERM.P"
  | .permPc1  => "PERM.PC1"
  | .permPc2  => "PERM.PC2"
  | .sbox     => "SBOX"
  | .keygen   => "KEYGEN"
  | .keyclr   => "KEYCLR"
  | .blkEnc   => "BLK.ENC"
  | .blkDec   => "BLK.DEC"
  | .xfEcbEnc => "XF.ECB.ENC"
  | .xfCbcEnc => "XF.CBC.ENC"
  | .xfCfbEnc => "XF.CFB.ENC"
  | .xfOfbEnc => "XF.OFB.ENC"
  | .xfCtrEnc => "XF.CTR.ENC"
  | .xfEcbDec => "XF.ECB.DEC"
  | .xfCbcDec => "XF.CBC.DEC"
  | .xfCfbDec => "XF.CFB.DEC"
  | .xfOfbDec => "XF.OFB.DEC"
  | .xfCtrDec => "XF.CTR.DEC"
  | .pad      => "PAD"
  | .unpad    => "UNPAD"
  | .mov      => "MOV"

/-- All 24 commands, in the order of the opcode map (R97). -/
def Instr.all : List Instr :=
  [.permIp, .permFp, .permE, .permP, .permPc1, .permPc2, .sbox, .keygen, .keyclr, .blkEnc, .blkDec]
    ++ [.xfEcbEnc, .xfCbcEnc, .xfCfbEnc, .xfOfbEnc, .xfCtrEnc]
    ++ [.xfEcbDec, .xfCbcDec, .xfCfbDec, .xfOfbDec, .xfCtrDec, .pad, .unpad, .mov]

/-- The command a mnemonic names: upper case, no operand field, no alias (R100). -/
def Instr.ofMnemonic (name : String) : Option Instr :=
  Instr.all.find? fun i => i.mnemonic == name

/-- What reaches the engine from outside: the five transactions of R35 (each a line of a host script, R101), and the
reset event of R280, which is applied from outside and is no command. -/
inductive HostEvent where
  /-- `HostLoad(s)`; script line `LOAD s`. -/
  | load (s : Bits)
  /-- `HostRead()`; script line `READ`. -/
  | read
  /-- `HostWriteReg(n, v)`; script line `WRREG n, v`. -/
  | writeReg (n v : Nat)
  /-- `HostReadReg(n)`; script line `RDREG n`. -/
  | readReg (n : Nat)
  /-- `HostIssue(c)`; a mnemonic line, whose word is `c`. -/
  | issue (c : Byte)
  /-- The reset event (R280). -/
  | reset
deriving DecidableEq, Repr

end Sys2Proof
end

