-- ==== Sys2Proof/Decode.lean ====
section
/-! DEFINITION. The decoder (30_encoding.md R90 to R99), total on all 256 words, and after it the encoder. -/

namespace Sys2Proof

/-- What a command word is: exactly one of a command, an `unsupported-mode` word or an `illegal-command` word (R90,
R96). The two rejections are error kinds of the engine (R255, R258), raised when the word is issued. -/
inductive Decoded where
  | command (i : Instr)
  | unsupportedMode
  | illegalCommand
deriving DecidableEq, Repr

/-- GRP = c[7:5], DIR = c[4], SEL = c[3:0] (R90). -/
def fieldsOf (c : Byte) : Fields :=
  { grp := c.extractLsb' 5 3, dir := c.extractLsb' 4 1, sel := c.extractLsb' 0 4 }

/-- The commands of group PERM by SEL (R99). -/
def permBySel : Nat → Decoded
  | 0 => .command .permIp
  | 1 => .command .permFp
  | 2 => .command .permE
  | 3 => .command .permP
  | 4 => .command .permPc1
  | 5 => .command .permPc2
  | 6 => .command .sbox
  | _ => .illegalCommand

/-- The commands of group XF by direction and mode tag; a tag of 5 to 15 names no mode (R94). -/
def xfByTag : (dir sel : Nat) → Decoded
  | 0, 0 => .command .xfEcbEnc
  | 0, 1 => .command .xfCbcEnc
  | 0, 2 => .command .xfCfbEnc
  | 0, 3 => .command .xfOfbEnc
  | 0, 4 => .command .xfCtrEnc
  | _, 0 => .command .xfEcbDec
  | _, 1 => .command .xfCbcDec
  | _, 2 => .command .xfCfbDec
  | _, 3 => .command .xfOfbDec
  | _, 4 => .command .xfCtrDec
  | _, _ => .unsupportedMode

/-- The decoder of R99 on the three fields. -/
def decodeFields (f : Fields) : Decoded :=
  match f.grp.toNat, f.dir.toNat, f.sel.toNat with
  | 0, 0, sel => permBySel sel
  | 1, 0, 0 => .command .keygen
  | 1, 0, 1 => .command .keyclr
  | 2, 0, 0 => .command .blkEnc
  | 2, _, 0 => .command .blkDec
  | 3, dir, sel => xfByTag dir sel
  | 4, 0, 0 => .command .pad
  | 4, _, 0 => .command .unpad
  | 5, 0, 0 => .command .mov
  | _, _, _ => .illegalCommand

/-- The decoder on a command word; its answer never depends on state (R91). -/
def decodeWord (c : Byte) : Decoded := decodeFields (fieldsOf c)

/-- The decoder on a sequence of bytes: a command is its first byte, always 8 bits long (R90, R91); no bytes, no
command. -/
def decode : List Byte → Option (Decoded × List Byte)
  | [] => none
  | c :: rest => some (decodeWord c, rest)

/-- The byte of an opcode-table word `w` of `nbits` bits; every bit above `nbits` is 0. -/
def tableWord (nbits w : Nat) : Byte := BitVec.ofNat 8 (w % 2 ^ nbits)

/-- The command the decoder reads from an opcode-table word, `none` where it rejects it. -/
def decodeTableWord (nbits w : Nat) : Option Instr :=
  match decode [tableWord nbits w] with
  | some (.command i, _) => some i
  | some (.unsupportedMode, _) => none
  | some (.illegalCommand, _) => none
  | none => none

/-- The word with the given fields: GRP, then DIR, then SEL, most significant first (R90). -/
def wordOf (f : Fields) : Byte := f.grp ++ f.dir ++ f.sel

/-- The encoder's table: the three fields of each command, the binary column of the opcode map (R97). -/
def encodeFields : Instr → Fields
  | .permIp   => ⟨0b000, 0b0, 0b0000⟩
  | .permFp   => ⟨0b000, 0b0, 0b0001⟩
  | .permE    => ⟨0b000, 0b0, 0b0010⟩
  | .permP    => ⟨0b000, 0b0, 0b0011⟩
  | .permPc1  => ⟨0b000, 0b0, 0b0100⟩
  | .permPc2  => ⟨0b000, 0b0, 0b0101⟩
  | .sbox     => ⟨0b000, 0b0, 0b0110⟩
  | .keygen   => ⟨0b001, 0b0, 0b0000⟩
  | .keyclr   => ⟨0b001, 0b0, 0b0001⟩
  | .blkEnc   => ⟨0b010, 0b0, 0b0000⟩
  | .blkDec   => ⟨0b010, 0b1, 0b0000⟩
  | .xfEcbEnc => ⟨0b011, 0b0, 0b0000⟩
  | .xfCbcEnc => ⟨0b011, 0b0, 0b0001⟩
  | .xfCfbEnc => ⟨0b011, 0b0, 0b0010⟩
  | .xfOfbEnc => ⟨0b011, 0b0, 0b0011⟩
  | .xfCtrEnc => ⟨0b011, 0b0, 0b0100⟩
  | .xfEcbDec => ⟨0b011, 0b1, 0b0000⟩
  | .xfCbcDec => ⟨0b011, 0b1, 0b0001⟩
  | .xfCfbDec => ⟨0b011, 0b1, 0b0010⟩
  | .xfOfbDec => ⟨0b011, 0b1, 0b0011⟩
  | .xfCtrDec => ⟨0b011, 0b1, 0b0100⟩
  | .pad      => ⟨0b100, 0b0, 0b0000⟩
  | .unpad    => ⟨0b100, 0b1, 0b0000⟩
  | .mov      => ⟨0b101, 0b0, 0b0000⟩

/-- The encoder: the word of a command (R97). -/
def encode (i : Instr) : Byte := wordOf (encodeFields i)

/-- Assembling one mnemonic line of a host script (R100, R101). -/
def assemble (name : String) : Option Byte := (Instr.ofMnemonic name).map encode

end Sys2Proof
end

