-- ==== Sys2Proof/Config.lean ====
section
/-! DEFINITION. The parameters of 00_scope.md R8: MAXBITS (open), CTR_MOD (2^64 for the hardware) and REGMAP (open).
None of them is state (10_state.md R21) and reset touches none of them (70_reset_and_hazards.md R282). -/

namespace Sys2Proof.Config

/-- OPEN PARAMETER, uninterpreted: `none` when the buffers are unbounded, `some k` when MAXBITS is `64 * (k + 2)`.
R8 and D6 allow exactly the multiples of 64 that are at least 128, or no bound; this form holds those and no other
(assumption log 1). Nothing can be proved about which one it is. -/
opaque extraBlocks : Option Nat

/-- MAXBITS, the capacity in bits of DIN and of DOUT (R8, R73); `none` is "unbounded". -/
def maxBits : Option Nat := extraBlocks.map fun k => 64 * (k + 2)

/-- CTR_MOD for this hardware: 2^64 (R8, D20). The counter-mode operations take the modulus as an argument, so that the
source's "small modulus substitute" can be tested. -/
def ctrMod : Nat := 2 ^ 64

/-- REGMAP: any injective map from the register numbers of R34, the reserved ones included, to platform addresses (R8,
R74, D21), with the platform's reading of an address back to its number. Every injective map has exactly one such
reading (`Config.RegMap.exists_of_injective`), so none is left out. -/
structure RegMap where
  /-- The platform address of a register number. -/
  addr : Nat → Nat
  /-- The register number at a platform address; `none` where the map puts no register. -/
  number : Nat → Option Nat
  /-- The two agree, so two register numbers never share an address. -/
  number_eq_some : ∀ a n, number a = some n ↔ addr n = a

end Sys2Proof.Config
end

