-- ==== Sys2Proof/Machine/Bits.lean ====
section
/-! DEFINITION. Bit sequences and their conversions, all most significant bit first (00_scope.md R10, R11;
20_memory.md R62 to R64). -/

namespace Sys2Proof.Machine

/-- `int(s)`: the sum of `s[i] * 2^(len(s)-1-i)` (R11). -/
def bitsToNat (s : Bits) : Nat := s.foldl (fun acc b => 2 * acc + b.toNat) 0

/-- `bits_n(v)`: `s[i] = floor(v / 2^(n-1-i)) mod 2` (R11). -/
def natToBits (n v : Nat) : Bits := (List.range n).map fun i => v.testBit (n - 1 - i)

/-- A sequence of `w` bits as a value of width `w`: its first bit is the most significant (R62). -/
def ofBits (w : Nat) (s : Bits) : BitVec w := BitVec.ofNat w (bitsToNat s)

/-- A value of width `w` as a sequence of `w` bits, most significant first (R62). -/
def toBits {w : Nat} (x : BitVec w) : Bits := natToBits w x.toNat

/-- `zeros(n)` (R10). -/
def zeros (n : Nat) : Bits := List.replicate n false

/-- `a ^ b` on sequences of one length (R10). -/
def xorBits (a b : Bits) : Bits := List.zipWith Bool.xor a b

/-- `rotl(s, n)`: the first `n` bits move to the end (R10). -/
def rotl {w : Nat} (x : BitVec w) (n : Nat) : BitVec w := x.rotateLeft n

/-- The sequence a host loads for bytes `b_0, b_1, ...`: bytes in order, each most significant bit first (R63). -/
def bytesToBits (bs : List Byte) : Bits := bs.flatMap fun b => toBits b

/-- The bytes of a sequence whose length is a multiple of 8: byte `j` is `int(s[8j..8j+8))` (R63). -/
def bitsToBytes (s : Bits) : List Byte :=
  (List.range (s.length / 8)).map fun j => ofBits 8 ((s.drop (8 * j)).take 8)

end Sys2Proof.Machine
end

