-- ==== Sys2Proof/Machine/State.lean ====
section
/-! DEFINITION. The state, every element that 10_state.md R22 to R34 names, with the hidden working registers of R38,
and its value after reset (R34, R281). -/

namespace Sys2Proof.Machine

/-- The eight error kinds of 60_exceptions.md R250. -/
inductive ErrorKind where
  | invalidKeyLength
  | invalidBlockLength
  | invalidStreamAlignment
  | unsupportedMode
  | noSubkeys
  | invalidOperandLength
  | invalidPadLength
  | illegalCommand
deriving DecidableEq, Repr

/-- What a reading transaction hands back to the host (R35). -/
inductive HostReply where
  /-- The sequence `HostRead()` returns. -/
  | bits (s : Bits)
  /-- The number `HostReadReg(n)` returns. -/
  | value (v : Nat)
deriving DecidableEq, Repr

/-- The machine stops with a fault: never. Every failure of a command is a next state (R256), the engine cannot hang
(R296) and no rule gives it a stuck state, so this type has no constructor (safe: nothing is lost by it). -/
inductive Fault : Type where
deriving DecidableEq, Repr

/-- Why a step is refused. -/
inductive Refusal where
  /-- Raised by `exec` for a command that has no meaning yet; no arm of this model raises it. Safe: the model stops. -/
  | notModelled (mnemonic : String)
  /-- Raised by `HostLoad(s)` with `len(s) > MAXBITS`: "the transaction is refused: it has no effect and the model gives
  it no step" (R35, U13). Safe: the model stops. -/
  | loadTooLong
  /-- Raised by `HostWriteReg(0x02, v)` with `v >= 2^64`: R35 gives the write for `v < 2^64` only ("needs `v < 2^64`").
  Safe: the model stops. -/
  | ivregValueTooWide
deriving DecidableEq, Repr

/-- The state. `pending` and `replies` are the model's own (assumption log 2): the transactions the host has still to
perform, oldest first, and what its reads have returned, oldest first. Everything else is the spec's. -/
structure State where
  /-- The input buffer (R30). -/
  din : Bits
  /-- The output buffer (R30). -/
  dout : Bits
  /-- K[0..15], the subkey registers (R22). -/
  k : SubkeySet
  /-- KVALID (R23). -/
  kvalid : Bool
  /-- IVREG, register 0x02 (R28). -/
  ivreg : Block
  /-- PADLEN, register 0x03, 7 bits (R29). -/
  padlen : BitVec 7
  /-- ERR, 4 bits (R31). -/
  err : BitVec 4
  /-- C, the first half of the key schedule's rotating state (R24). -/
  c : KeyHalf
  /-- D, the second half (R24). -/
  d : KeyHalf
  /-- L, the left Feistel half (R25). -/
  l : Half
  /-- R, the right Feistel half (R25). -/
  r : Half
  /-- CS, the chaining state (R26). -/
  cs : Block
  /-- UIDX, the unit index (R27). -/
  uidx : Nat
  /-- The host's transactions not yet performed, oldest first. -/
  pending : List HostEvent
  /-- What the host's reads have returned, oldest first. -/
  replies : List HostReply
deriving DecidableEq, Repr

/-- Every engine element zero or empty (R34, R39, R281); no transaction is pending and nothing has been read. -/
def State.reset : State where
  din := []
  dout := []
  k := Vector.replicate 16 0
  kvalid := false
  ivreg := 0
  padlen := 0
  err := 0
  c := 0
  d := 0
  l := 0
  r := 0
  cs := 0
  uidx := 0
  pending := []
  replies := []

/-- The result of a meaning. -/
abbrev Result := Host.Outcome State Fault Refusal

end Sys2Proof.Machine
end

