-- ==== Sys2Proof/Machine/Flags.lean ====
section
/-! DEFINITION. The flags: the result code ERR, the flag KVALID and the derived register STATUS (10_state.md R23, R31,
R32; 60_exceptions.md R250). There are no condition codes (R37). -/

namespace Sys2Proof.Machine

/-- The code ERR takes for each error kind (R250); 0 is success, and 9 to 15 are never produced. -/
def errorCode : ErrorKind → BitVec 4
  | .invalidKeyLength       => 1
  | .invalidBlockLength     => 2
  | .invalidStreamAlignment => 3
  | .unsupportedMode        => 4
  | .noSubkeys              => 5
  | .invalidOperandLength   => 6
  | .invalidPadLength       => 7
  | .illegalCommand         => 8

/-- STATUS: `[3:0] = ERR`, `[4] = KVALID`, `[7:5] = 0`; made of other state and holding none of its own (R32). -/
def status (s : State) : BitVec 8 := (0 : BitVec 3) ++ BitVec.ofBool s.kvalid ++ s.err

end Sys2Proof.Machine
end

