-- ==== Sys2Proof/Machine/Ops.lean ====
section
/-! DEFINITION. The shared operations over the buffers and the registers: MemRead and MemWrite (00_scope.md R14), the
capacity test (20_memory.md R73), the one way a command fails (60_exceptions.md R256) and the register space
(10_state.md R34, R35). There is no return from a failure (R262). -/

namespace Sys2Proof.Machine

/-- `MemRead(off, n)`: `n` bits of a buffer from bit offset `off`; no side effect (R14, R61, R72). -/
def memRead (buf : Bits) (off n : Nat) : Bits := (buf.drop off).take n

/-- `MemWrite(len(DOUT), n, v)`, the only use the spec makes of it: an append to DOUT (R14). -/
def memWrite (v : Bits) (s : State) : State := { s with dout := s.dout ++ v }

/-- Whether a sequence of `n` bits fits a buffer: `n <= MAXBITS` (R30, R73). Every capacity R8 allows is at least 128
bits, so a length up to 128 is settled before the open parameter is looked at; `fits_eq` shows the two agree. -/
def fits (n : Nat) : Bool :=
  decide (n ≤ 128) ||
    match Config.maxBits with
    | none => true
    | some m => decide (n ≤ m)

/-- The capacity condition on both buffers (R73), which every command and transaction keeps. A buffer is a list of
exactly its bits (R61), so equal contents are equal data and there is no other form to keep. -/
def Memory.wf (s : State) : Bool := fits s.din.length && fits s.dout.length

/-- `raise Error(kind)`: ERR takes the kind's code, DOUT is emptied, nothing else changes (R256). -/
def raiseError (kind : ErrorKind) (s : State) : State :=
  { s with err := errorCode kind, dout := [] }

/-- `ERR <- 0`, the last act of every command that succeeds (R31). -/
def succeed (s : State) : State := { s with err := 0 }

/-- `DOUT <- v; ERR <- 0`: a successful data command replaces the whole of DOUT (R72). -/
def succeedWith (v : Bits) (s : State) : State := succeed { s with dout := v }

/-- `K[i]` for `0 <= i <= 15` (R22). -/
def subkey (s : State) (i : Fin 16) : Subkey := s.k[i]

/-- `HostReadReg(n)`: the number it returns (R34, R35). -/
def readReg (n : Nat) (s : State) : Nat :=
  if n = 0x00 then 0
  else if n = 0x01 then (status s).toNat
  else if n = 0x02 then s.ivreg.toNat
  else if n = 0x03 then s.padlen.toNat
  else if n = 0x04 then s.din.length
  else if n = 0x05 then s.dout.length
  else if 0x10 ≤ n ∧ n ≤ 0x1F then (s.k.toList.getD (n - 0x10) 0).toNat
  else 0

/-- `IVREG <- bits_64(v)`, for `v < 2^64` (R28, R35). -/
def writeIvreg (v : Nat) (s : State) : State := { s with ivreg := BitVec.ofNat 64 v }

/-- `PADLEN <- v mod 128` (R29, R35). -/
def writePadlen (v : Nat) (s : State) : State := { s with padlen := BitVec.ofNat 7 v }

/-- `HostLoad(s)`: `DIN <- s` and nothing else (R35). -/
def loadDin (v : Bits) (s : State) : State := { s with din := v }

/-- A read hands its value to the host; no engine state changes (R35, R72). -/
def reply (v : HostReply) (s : State) : State := { s with replies := s.replies ++ [v] }

/-- The reset event overwrites every engine element with its reset value, from any state (R280, R281). What the host has
still to do and what it has read are not the engine's and stay. -/
def applyReset (s : State) : State :=
  { State.reset with pending := s.pending, replies := s.replies }

end Sys2Proof.Machine
end

