-- ==== Sys2Proof/Machine/Operands.lean ====
section
/-! DEFINITION. The operand forms. No command word carries an operand (30_encoding.md R95): a command takes the whole of
DIN, as one value of a fixed width (20_memory.md R68) or as a stream of units (R65, R66). -/

namespace Sys2Proof.Machine

/-- The fixed-width operand: the whole of DIN, which must have exactly `w` bits, or the command fails with `kind` and
does nothing else; no truncation and no extension (R68). -/
def withOperand (w : Nat) (kind : ErrorKind) (run : BitVec w → State → State) (s : State) : State :=
  if s.din.length = w then run (ofBits w s.din) s else raiseError kind s

/-- The number of units: `ceil(n / w)` (R65, R66). -/
def unitCount (w n : Nat) : Nat := (n + w - 1) / w

/-- Unit `i` of a stream: `MemRead(w*i, min(w, n - w*i))` (R65 with `w = 64`, R66 with `w = 8`). -/
def unitAt (w : Nat) (stream : Bits) (i : Nat) : Bits :=
  memRead stream (w * i) (min w (stream.length - w * i))

/-- The units of a stream in increasing index (R208). -/
def units (w : Nat) (stream : Bits) : List Bits :=
  (List.range (unitCount w stream.length)).map (unitAt w stream)

end Sys2Proof.Machine
end

