-- ==== Sys2Proof/Machine/Buffers.lean ====
section
/-! DEFINITION. The padding helpers and the buffer move: PAD, UNPAD, MOV (43_mode_driver.md R201 to R203). -/

namespace Sys2Proof.Machine

/-- The number of zero bits PAD appends to a stream of `n` bits: `64 - (n mod 64)`, always 1 to 64 (R201, C1). -/
def padCount (n : Nat) : Nat := 64 - n % 64

/-- PAD (R201). -/
def execPad (s : State) : Result :=
  let n := s.din.length
  let p := padCount n
  if fits (n + p) then
    .next (succeed { s with dout := memRead s.din 0 n ++ zeros p, padlen := BitVec.ofNat 7 p })
  else .next (raiseError .invalidOperandLength s)

/-- UNPAD: removes the last PADLEN bits and does not look at them (R202). -/
def execUnpad (s : State) : Result :=
  let n := s.din.length
  let p := s.padlen.toNat
  if p ≤ n then .next (succeedWith (memRead s.din 0 (n - p)) s)
  else .next (raiseError .invalidPadLength s)

/-- MOV: `DIN <- DOUT` (R203). -/
def execMov (s : State) : Result := .next (succeed { s with din := s.dout })

end Sys2Proof.Machine
end

