-- ==== Sys2Proof/Machine/Permutation.lean ====
section
/-! DEFINITION. Sub-block (a), the permutation engine: `permute`, the S-box layer, and the commands PERM.* and SBOX
(40_permutation_engine.md R120, R130 to R140). -/

namespace Sys2Proof.Machine

/-- `permute(T, s)`: output bit `j` is `s[T[j] - 1]` (R120). -/
def permute (table : List Nat) (m : Nat) {w : Nat} (s : BitVec w) : BitVec m :=
  ofBits m (table.map fun t => s.getMsbD (t - 1))

/-- `SBoxLookup(j, g)` for a box number `j` in 1..8: row `2*g[0] + g[5]`, column `8*g[1] + 4*g[2] + 2*g[3] + g[4]`
(R130). -/
def sboxLookup (j : Nat) (g : BitVec 6) : BitVec 4 :=
  let row := 2 * (g.getMsbD 0).toNat + (g.getMsbD 5).toNat
  let col := 8 * (g.getMsbD 1).toNat + 4 * (g.getMsbD 2).toNat + 2 * (g.getMsbD 3).toNat + (g.getMsbD 4).toNat
  BitVec.ofNat 4 (((tableS.getD (j - 1) []).getD row []).getD col 0)

/-- Group `j` (1..8) of the S-box layer's input: `x[6(j-1) .. 6j)` (R131). -/
def sboxGroup (x : BitVec 48) (j : Nat) : BitVec 6 := x.extractLsb' (48 - 6 * j) 6

/-- `SBoxLayer(x)`: group `j` goes through box `j`; the eight results are concatenated in order (R131). -/
def sboxLayer (x : BitVec 48) : BitVec 32 :=
  ofBits 32 ([1, 2, 3, 4, 5, 6, 7, 8].flatMap fun j => toBits (sboxLookup j (sboxGroup x j)))

/-- The template of the PERM commands: exact width or `invalid-operand-length`; DOUT takes the table's selection (R133). -/
def tableCommand (table : List Nat) (w m : Nat) (s : State) : State :=
  withOperand w .invalidOperandLength (fun x => succeedWith (toBits (permute table m x))) s

/-- PERM.IP (R134). -/
def execPermIp (s : State) : Result := .next (tableCommand tableIp 64 64 s)

/-- PERM.FP (R135). -/
def execPermFp (s : State) : Result := .next (tableCommand tableFp 64 64 s)

/-- PERM.E (R136). -/
def execPermE (s : State) : Result := .next (tableCommand tableE 32 48 s)

/-- PERM.P (R137). -/
def execPermP (s : State) : Result := .next (tableCommand tableP 32 32 s)

/-- PERM.PC1 (R138). -/
def execPermPc1 (s : State) : Result := .next (tableCommand tablePc1 64 56 s)

/-- PERM.PC2 (R139). -/
def execPermPc2 (s : State) : Result := .next (tableCommand tablePc2 56 48 s)

/-- SBOX (R140). -/
def execSbox (s : State) : Result :=
  .next (withOperand 48 .invalidOperandLength (fun x => succeedWith (toBits (sboxLayer x))) s)

end Sys2Proof.Machine
end

