-- ==== Sys2Proof/Machine/KeySchedule.lean ====
section
/-! DEFINITION. Sub-block (b), the key schedule: `KeySchedule` and the commands KEYGEN and KEYCLR (41_key_schedule.md
R160 to R164). -/

namespace Sys2Proof.Machine

/-- One round: rotate both halves by the round's amount; the subkey is PC-2 of the rotated `C ‖ D` (R161). -/
def scheduleRound (shift : Nat) (cd : KeyHalf × KeyHalf) : KeyHalf × KeyHalf :=
  (rotl cd.1 shift, rotl cd.2 shift)

/-- The subkeys of the rounds whose shifts are given, and the halves after the last of them. The rotation comes before
the subkey is taken and accumulates across rounds (R161). -/
def scheduleRounds : List Nat → KeyHalf × KeyHalf → List Subkey × (KeyHalf × KeyHalf)
  | [], cd => ([], cd)
  | shift :: shifts, cd =>
    let cd' := scheduleRound shift cd
    let rest := scheduleRounds shifts cd'
    (permute tablePc2 48 (cd'.1 ++ cd'.2) :: rest.1, rest.2)

/-- PC-1 of the key, split: `C` is the first 28 bits and `D` the last 28 (R161). -/
def scheduleStart (key : Block) : KeyHalf × KeyHalf :=
  let cd : BitVec 56 := permute tablePc1 56 key
  (cd.extractLsb' 28 28, cd.extractLsb' 0 28)

/-- `KeySchedule(key)`: the sixteen subkeys in order of rounds, and `C`, `D` after round 16 (R160, R161). -/
def keySchedule (key : Block) : List Subkey × (KeyHalf × KeyHalf) :=
  scheduleRounds tableShifts (scheduleStart key)

/-- The list `k[0], ..., k[15]` as the register file; a register the list does not reach would hold zero, and
`keySchedule` gives exactly sixteen (`keySchedule_length`). -/
def toSubkeySet (ks : List Subkey) : SubkeySet :=
  #v[ks.getD 0 0, ks.getD 1 0, ks.getD 2 0, ks.getD 3 0, ks.getD 4 0, ks.getD 5 0, ks.getD 6 0, ks.getD 7 0,
     ks.getD 8 0, ks.getD 9 0, ks.getD 10 0, ks.getD 11 0, ks.getD 12 0, ks.getD 13 0, ks.getD 14 0, ks.getD 15 0]

/-- The subkey set of a key (R160). -/
def subkeysOf (key : Block) : SubkeySet := toSubkeySet (keySchedule key).1

/-- The sixteen registers zero: `K[i] <- zeros(48)` for every `i` (R164). -/
def zeroSubkeys : SubkeySet := Vector.replicate 16 0

/-- The writes of a successful KEYGEN: K[0..15], KVALID, C, D and ERR (R163). -/
def loadSubkeys (key : Block) (s : State) : State :=
  let ks := keySchedule key
  succeed { s with k := toSubkeySet ks.1, kvalid := true, c := ks.2.1, d := ks.2.2 }

/-- KEYGEN (R163). -/
def execKeygen (s : State) : Result := .next (withOperand 64 .invalidKeyLength loadSubkeys s)

/-- KEYCLR (R164). -/
def execKeyclr (s : State) : Result :=
  .next (succeed { s with k := zeroSubkeys, kvalid := false, c := 0, d := 0 })

end Sys2Proof.Machine
end

