-- ==== Sys2Proof/Machine/Feistel.lean ====
section
/-! DEFINITION. Sub-block (c), the Feistel block: the round function, the round, `BlockEngine`, and the commands BLK.ENC
and BLK.DEC (42_feistel_block.md R180 to R187). -/

namespace Sys2Proof.Machine

/-- `f(r, k) = permute(P, SBoxLayer(permute(E, r) ^ k))` (R181). -/
def roundFunction (r : Half) (k : Subkey) : Half :=
  permute tableP 32 (sboxLayer (permute tableE 48 r ^^^ k))

/-- One round: `(L, R)` becomes `(R, L ^ f(R, k))`, both from the old pair (R182). -/
def feistelRound (lr : Half × Half) (k : Subkey) : Half × Half :=
  (lr.2, lr.1 ^^^ roundFunction lr.2 k)

/-- The subkeys in the order of use: K[0] to K[15] to encrypt, K[15] down to K[0] to decrypt (R184). -/
def subkeyOrder (dir : Direction) (k : SubkeySet) : List Subkey :=
  match dir with
  | .enc => k.toList
  | .dec => k.toList.reverse

/-- The initial permutation and the split: `L` is the first 32 bits, `R` the last 32 (R183). -/
def feistelSplit (b : Block) : Half × Half :=
  let x : Block := permute tableIp 64 b
  (x.extractLsb' 32 32, x.extractLsb' 0 32)

/-- The pair `(L, R)` after the sixteenth round (R184). -/
def feistelHalves (k : SubkeySet) (dir : Direction) (b : Block) : Half × Half :=
  (subkeyOrder dir k).foldl feistelRound (feistelSplit b)

/-- The final swap and the inverse initial permutation: `permute(FP, R ‖ L)` (R183, R184). -/
def feistelJoin (lr : Half × Half) : Block := permute tableFp 64 (lr.2 ++ lr.1)

/-- `BlockEngine(b, dir)` (R184) as a function of the subkeys, the direction and the block (R180). -/
def blockEngine (k : SubkeySet) (dir : Direction) (b : Block) : Block :=
  feistelJoin (feistelHalves k dir b)

/-- A call of the block engine by a command: its result, and the state with the working registers `L` and `R` it leaves;
it writes nothing else (R180). -/
def callEngine (dir : Direction) (b : Block) (s : State) : Block × State :=
  let lr := feistelHalves s.k dir b
  (feistelJoin lr, { s with l := lr.1, r := lr.2 })

/-- BLK.ENC and BLK.DEC: `no-subkeys`, then `invalid-block-length`, then the bare block operation (R186, R187). -/
def blockCommand (dir : Direction) (s : State) : State :=
  if s.kvalid then
    withOperand 64 .invalidBlockLength
      (fun b s => let out := callEngine dir b s; succeedWith (toBits out.1) out.2) s
  else raiseError .noSubkeys s

/-- BLK.ENC (R186). -/
def execBlkEnc (s : State) : Result := .next (blockCommand .enc s)

/-- BLK.DEC (R187). -/
def execBlkDec (s : State) : Result := .next (blockCommand .dec s)

end Sys2Proof.Machine
end

