-- ==== Sys2Proof/Machine/ModeDriver.lean ====
section
/-! DEFINITION. Sub-block (d), the mode driver: the ten XF commands (43_mode_driver.md R204 to R220). Each mode is the
body of its loop, a function of the unit read from DIN and the state, which writes the result unit to DOUT and updates
the chaining state. -/

namespace Sys2Proof.Machine

/-- The checks of every XF command after decoding, in order: `no-subkeys`, then for ECB and CBC
`invalid-stream-alignment` (R204, R257). -/
def xfChecked (aligned : Bool) (run : State → State) (s : State) : State :=
  if s.kvalid then
    if aligned && s.din.length % 64 != 0 then raiseError .invalidStreamAlignment s else run s
  else raiseError .noSubkeys s

/-- `DOUT <- <>` and `UIDX <- 0`, at the entry of every XF command (R27, R210 to R220). -/
def xfBegin (s : State) : State := { s with dout := [], uidx := 0 }

/-- `CS <- IVREG`, at the entry of every XF command but ECB's (R207). -/
def loadChain (s : State) : State := { s with cs := s.ivreg }

/-- One iteration: the loop body on one unit, then UIDX goes up by one (R208). -/
def xfIteration (body : Bits → State → State) (s : State) (u : Bits) : State :=
  let t := body u s
  { t with uidx := t.uidx + 1 }

/-- The loop over the units of DIN in increasing index, then `ERR <- 0` (R208). No body writes DIN, so every unit is
that of the DIN at entry. -/
def xfLoop (w : Nat) (body : Bits → State → State) (s : State) : State :=
  succeed ((units w s.din).foldl (xfIteration body) s)

/-- The first `k` bits of a keystream block, `k` the length of the unit (R64, R216). -/
def keystream (x : Block) (u : Bits) : Bits := (toBits x).take u.length

/-- The CFB register update `CS[8..64) ‖ segment ‖ zeros(8 - k)` (R214, R218). -/
def shiftIn (cs : Block) (segment : Bits) : Block :=
  ofBits 64 ((toBits cs).drop 8 ++ segment ++ zeros (8 - segment.length))

/-- The counter update `CS <- bits_64((int(CS) + 1) mod CTR_MOD)` (R219). -/
def nextCounter (modulus : Nat) (cs : Block) : Block := BitVec.ofNat 64 ((cs.toNat + 1) % modulus)

/-- ECB, either direction (R210, R211). -/
def ecbUnit (dir : Direction) (u : Bits) (s : State) : State :=
  let out := callEngine dir (ofBits 64 u) s
  memWrite (toBits out.1) out.2

/-- CBC, encrypt: the chaining value becomes the ciphertext, the output (R212). -/
def cbcEncUnit (u : Bits) (s : State) : State :=
  let out := callEngine .enc (ofBits 64 u ^^^ s.cs) s
  { memWrite (toBits out.1) out.2 with cs := out.1 }

/-- CBC, decrypt: the chaining value becomes the ciphertext, the input (R213). -/
def cbcDecUnit (u : Bits) (s : State) : State :=
  let out := callEngine .dec (ofBits 64 u) s
  { memWrite (toBits (out.1 ^^^ s.cs)) out.2 with cs := ofBits 64 u }

/-- CFB, encrypt: the register is filled with the output segment (R214). -/
def cfbEncUnit (u : Bits) (s : State) : State :=
  let out := callEngine .enc s.cs s
  let c := xorBits u (keystream out.1 u)
  { memWrite c out.2 with cs := shiftIn s.cs c }

/-- CFB, decrypt: the register is filled with the input segment (R215). -/
def cfbDecUnit (u : Bits) (s : State) : State :=
  let out := callEngine .enc s.cs s
  { memWrite (xorBits u (keystream out.1 u)) out.2 with cs := shiftIn s.cs u }

/-- OFB, either direction: the feedback is encrypted before it is used (R216, R217). -/
def ofbUnit (u : Bits) (s : State) : State :=
  let out := callEngine .enc s.cs s
  { memWrite (xorBits u (keystream out.1 u)) out.2 with cs := out.1 }

/-- CTR, either direction: the counter is used, then incremented (R219, R220). -/
def ctrUnit (modulus : Nat) (u : Bits) (s : State) : State :=
  let out := callEngine .enc s.cs s
  { memWrite (xorBits u (keystream out.1 u)) out.2 with cs := nextCounter modulus s.cs }

/-- XF.ECB.ENC (R210). -/
def execXfEcbEnc (s : State) : Result :=
  .next (xfChecked true (fun s => xfLoop 64 (ecbUnit .enc) (xfBegin s)) s)

/-- XF.ECB.DEC (R211). -/
def execXfEcbDec (s : State) : Result :=
  .next (xfChecked true (fun s => xfLoop 64 (ecbUnit .dec) (xfBegin s)) s)

/-- XF.CBC.ENC (R212). -/
def execXfCbcEnc (s : State) : Result :=
  .next (xfChecked true (fun s => xfLoop 64 cbcEncUnit (loadChain (xfBegin s))) s)

/-- XF.CBC.DEC (R213). -/
def execXfCbcDec (s : State) : Result :=
  .next (xfChecked true (fun s => xfLoop 64 cbcDecUnit (loadChain (xfBegin s))) s)

/-- XF.CFB.ENC (R214). -/
def execXfCfbEnc (s : State) : Result :=
  .next (xfChecked false (fun s => xfLoop 8 cfbEncUnit (loadChain (xfBegin s))) s)

/-- XF.CFB.DEC (R215). -/
def execXfCfbDec (s : State) : Result :=
  .next (xfChecked false (fun s => xfLoop 8 cfbDecUnit (loadChain (xfBegin s))) s)

/-- XF.OFB.ENC (R216). -/
def execXfOfbEnc (s : State) : Result :=
  .next (xfChecked false (fun s => xfLoop 64 ofbUnit (loadChain (xfBegin s))) s)

/-- XF.OFB.DEC (R217). -/
def execXfOfbDec (s : State) : Result :=
  .next (xfChecked false (fun s => xfLoop 64 ofbUnit (loadChain (xfBegin s))) s)

/-- XF.CTR.ENC (R219). -/
def execXfCtrEnc (s : State) : Result :=
  .next (xfChecked false (fun s => xfLoop 64 (ctrUnit Config.ctrMod) (loadChain (xfBegin s))) s)

/-- XF.CTR.DEC (R220). -/
def execXfCtrDec (s : State) : Result :=
  .next (xfChecked false (fun s => xfLoop 64 (ctrUnit Config.ctrMod) (loadChain (xfBegin s))) s)

end Sys2Proof.Machine
end

