-- ==== Sys2Proof/Machine/Dispatch.lean ====
section
/-! DEFINITION. The dispatch: one arm per command (30_encoding.md R96, R97). -/

namespace Sys2Proof.Machine

def exec (i : Instr) (s : State) : Host.Outcome State Fault Refusal :=
  match i with
  | .permIp => Sys2Proof.Machine.execPermIp s
  | .permFp => Sys2Proof.Machine.execPermFp s
  | .permE => Sys2Proof.Machine.execPermE s
  | .permP => Sys2Proof.Machine.execPermP s
  | .permPc1 => Sys2Proof.Machine.execPermPc1 s
  | .permPc2 => Sys2Proof.Machine.execPermPc2 s
  | .sbox => Sys2Proof.Machine.execSbox s
  | .keygen => Sys2Proof.Machine.execKeygen s
  | .keyclr => Sys2Proof.Machine.execKeyclr s
  | .blkEnc => Sys2Proof.Machine.execBlkEnc s
  | .blkDec => Sys2Proof.Machine.execBlkDec s
  | .xfEcbEnc => Sys2Proof.Machine.execXfEcbEnc s
  | .xfCbcEnc => Sys2Proof.Machine.execXfCbcEnc s
  | .xfCfbEnc => Sys2Proof.Machine.execXfCfbEnc s
  | .xfOfbEnc => Sys2Proof.Machine.execXfOfbEnc s
  | .xfCtrEnc => Sys2Proof.Machine.execXfCtrEnc s
  | .xfEcbDec => Sys2Proof.Machine.execXfEcbDec s
  | .xfCbcDec => Sys2Proof.Machine.execXfCbcDec s
  | .xfCfbDec => Sys2Proof.Machine.execXfCfbDec s
  | .xfOfbDec => Sys2Proof.Machine.execXfOfbDec s
  | .xfCtrDec => Sys2Proof.Machine.execXfCtrDec s
  | .pad => Sys2Proof.Machine.execPad s
  | .unpad => Sys2Proof.Machine.execUnpad s
  | .mov => Sys2Proof.Machine.execMov s

end Sys2Proof.Machine
end

