-- ==== Sys2Proof/Machine/Transactions.lean ====
section
/-! DEFINITION. The host's transactions (10_state.md R35), the issue of a command word (30_encoding.md R99), and the
transactions at a platform address (REGMAP, 00_scope.md R8). -/

namespace Sys2Proof.Machine

/-- `HostIssue(c)`: decoding comes before every other check (R99, R257). A rejected word is a failed command: it takes
the failure entry (R255, R256, R258). -/
def hostIssue (c : Byte) (s : State) : Result :=
  match decodeWord c with
  | .command i => exec i s
  | .unsupportedMode => .next (raiseError .unsupportedMode s)
  | .illegalCommand => .next (raiseError .illegalCommand s)

/-- `HostLoad(s)`; longer than MAXBITS it is refused (R35, U13). -/
def hostLoad (v : Bits) (s : State) : Result :=
  if fits v.length then .next (loadDin v s) else .refused .loadTooLong

/-- `HostRead()`: returns DOUT (R35). -/
def hostRead (s : State) : Result := .next (reply (.bits s.dout) s)

/-- `HostReadReg(n)` (R35). -/
def hostReadReg (n : Nat) (s : State) : Result := .next (reply (.value (readReg n s)) s)

/-- `HostWriteReg(n, v)`: CMD issues a command, IVREG and PADLEN are written, every other number is ignored (R33 to R35). -/
def hostWriteReg (n v : Nat) (s : State) : Result :=
  if n = 0x00 then hostIssue (BitVec.ofNat 8 v) s
  else if n = 0x02 then
    if v < 2 ^ 64 then .next (writeIvreg v s) else .refused .ivregValueTooWide
  else if n = 0x03 then .next (writePadlen v s)
  else .next s

/-- One transaction of the host, or the reset event; each is atomic (R35, R76, R280). -/
def transact (e : HostEvent) (s : State) : Result :=
  match e with
  | .load v => hostLoad v s
  | .read => hostRead s
  | .writeReg n v => hostWriteReg n v s
  | .readReg n => hostReadReg n s
  | .issue c => hostIssue c s
  | .reset => .next (applyReset s)

/-- Take the oldest pending transaction and perform it; with none pending the engine holds its state (R76, R270). -/
def serveNext (s : State) : Result :=
  match s.pending with
  | [] => .next s
  | e :: rest => transact e { s with pending := rest }

/-- The register number that a platform address names under REGMAP, any number of R34's table, the reserved ones from
0x06 and from 0x20 up among them; `none` for an address to which the map takes no number (R8, R34, D21). -/
def busRegister (m : Config.RegMap) (a : Nat) : Option Nat := m.number a

/-- A bus write at a platform address, as the transaction it is. -/
def busWrite (m : Config.RegMap) (a v : Nat) : Option HostEvent :=
  (busRegister m a).map fun n => .writeReg n v

/-- A bus read at a platform address, as the transaction it is. -/
def busRead (m : Config.RegMap) (a : Nat) : Option HostEvent :=
  (busRegister m a).map fun n => .readReg n

end Sys2Proof.Machine
end

