-- ==== Sys2Proof/Machine/Step.lean ====
section
/-! DEFINITION. One step: the engine serves the host's next transaction (20_memory.md R76). -/

namespace Sys2Proof.Machine

/-- One step of the machine. There is no program counter and no instruction fetch (10_state.md R36): the next command is
the word of the oldest pending `HostIssue`. -/
def step (s : State) : Host.Outcome State Fault Refusal := serveNext s

/-- The state with the `HostIssue` of an opcode-table word as the transaction the next step performs; nothing else
changes. It stands for a host that issues that command (assumption log 3). -/
def State.withFetchWord (s : State) (nbits w : Nat) : State :=
  { s with pending := .issue (tableWord nbits w) :: s.pending }

end Sys2Proof.Machine
end

