-- ==== Sys2Proof/WellFormed.lean ====
section
/-! DEFINITION. What is well formed: the fields of a command word (30_encoding.md R92 to R94), a command, and a host
transaction (the preconditions of 10_state.md R35). -/

namespace Sys2Proof

/-- The group table of R92: what each group allows in DIR and SEL. Group XF with a mode tag of 5 to 15 is R94's
`unsupported-mode`; every other combination left out is reserved (R98). -/
def Fields.wf (f : Fields) : Bool :=
  match f.grp.toNat with
  | 0 => f.dir == 0 && decide (f.sel.toNat ≤ 6)
  | 1 => f.dir == 0 && decide (f.sel.toNat ≤ 1)
  | 2 => f.sel == 0
  | 3 => decide (f.sel.toNat ≤ 4)
  | 4 => f.sel == 0
  | 5 => f.dir == 0 && f.sel == 0
  | _ => false

/-- A command has no operand of its own (R95): it is well formed exactly when its fields are. -/
def Instr.wf (i : Instr) : Bool := (encodeFields i).wf

/-- The preconditions R35 puts on a transaction: `HostLoad(s)` needs `len(s) <= MAXBITS`, and a write of IVREG
(number 0x02) needs `v < 2^64`. -/
def HostEvent.wf : HostEvent → Bool
  | .load s =>
    match Config.maxBits with
    | none => true
    | some m => decide (s.length ≤ m)
  | .writeReg n v => n != 2 || decide (v < 2 ^ 64)
  | .read => true
  | .readReg _ => true
  | .issue _ => true
  | .reset => true

end Sys2Proof
end

