-- ==== Sys2Proof/Safety.lean ====
section
/-! DEFINITION. The terms claims are stated in: the capacity condition, the blocks of a stream, what the host can see,
the machine's invariant, and a legal script. -/

namespace Sys2Proof.Machine

/-- `n <= MAXBITS`, straight from R8 and R73: always so when the buffers are unbounded. -/
def withinCapacity (n : Nat) : Bool :=
  match Config.maxBits with
  | none => true
  | some m => decide (n ≤ m)

/-- Block `i` of a stream: its bits `64*i` to `64*i + 63` as a value (R65). -/
def blockAt (stream : Bits) (i : Nat) : Block := ofBits 64 ((stream.drop (64 * i)).take 64)

/-- What every reachable state satisfies. -/
structure Inv (s : State) : Prop where
  /-- DIN and DOUT are within the capacity (R73). -/
  buffers : Memory.wf s = true
  /-- ERR holds 0 or one of the eight codes; 9 to 15 are never produced (R250). -/
  errCode : s.err.toNat ≤ 8
  /-- With KVALID = 0 no key material is in the registers: K, C and D are zero (R22, R24, R35). -/
  noKey : s.kvalid = false → s.k = zeroSubkeys ∧ s.c = 0 ∧ s.d = 0
  /-- With KVALID = 1 the set in use is the schedule of some 64-bit key (R23, R293). -/
  someKey : s.kvalid = true → ∃ key, s.k = subkeysOf key ∧ (s.c, s.d) = (keySchedule key).2
  /-- UIDX never passes `ceil(MAXBITS / 8)` (R27, R36). -/
  unitIndex : ∀ m, Config.maxBits = some m → s.uidx ≤ unitCount 8 m

/-- The two states differ at most in the hidden working registers C, D, L, R, CS and UIDX (R38). -/
def SameVisible (s t : State) : Prop :=
  t = { s with c := t.c, d := t.d, l := t.l, r := t.r, cs := t.cs, uidx := t.uidx }

/-- Two outcomes that agree on all the host can see: both go on, in states that differ at most in the hidden registers,
or both are refused for one reason. -/
def SameOutcome : Result → Result → Prop
  | .next s, .next t => SameVisible s t
  | .refused a, .refused b => a = b
  | _, _ => False

/-- Every transaction still pending meets the preconditions of R35. -/
def LegalScript (s : State) : Prop := ∀ e ∈ s.pending, e.wf = true

/-- The command word a transaction issues: `HostIssue(c)`, or a write of CMD, which is the same (R33). -/
def issuedWord : HostEvent → Option Byte
  | .issue c => some c
  | .writeReg n v => if n = 0 then some (BitVec.ofNat 8 v) else none
  | .load _ => none
  | .read => none
  | .readReg _ => none
  | .reset => none

/-- The two states agree on what the command reads: the "reads" column of the opcode map (R97). -/
def SameOperands (i : Instr) (s t : State) : Prop :=
  match i with
  | .permIp | .permFp | .permE | .permP | .permPc1 | .permPc2 | .sbox | .keygen | .pad => t.din = s.din
  | .keyclr => True
  | .blkEnc | .blkDec | .xfEcbEnc | .xfEcbDec => t.din = s.din ∧ t.k = s.k ∧ t.kvalid = s.kvalid
  | .xfCbcEnc | .xfCfbEnc | .xfOfbEnc | .xfCtrEnc | .xfCbcDec | .xfCfbDec | .xfOfbDec | .xfCtrDec =>
    t.din = s.din ∧ t.k = s.k ∧ t.kvalid = s.kvalid ∧ t.ivreg = s.ivreg
  | .unpad => t.din = s.din ∧ t.padlen = s.padlen
  | .mov => t.dout = s.dout

/-- What the command may write when it succeeds: the "writes on success" column of the opcode map (R97). Every element
not named there keeps its value from `s` to `t`. -/
def WritesOnly (i : Instr) (s t : State) : Prop :=
  match i with
  | .permIp | .permFp | .permE | .permP | .permPc1 | .permPc2 | .sbox | .unpad =>
    t = { s with dout := t.dout, err := 0 }
  | .keygen | .keyclr => t = { s with k := t.k, kvalid := t.kvalid, c := t.c, d := t.d, err := 0 }
  | .blkEnc | .blkDec => t = { s with dout := t.dout, l := t.l, r := t.r, err := 0 }
  | .xfEcbEnc | .xfEcbDec => t = { s with dout := t.dout, l := t.l, r := t.r, uidx := t.uidx, err := 0 }
  | .xfCbcEnc | .xfCfbEnc | .xfOfbEnc | .xfCtrEnc | .xfCbcDec | .xfCfbDec | .xfOfbDec | .xfCtrDec =>
    t = { s with dout := t.dout, cs := t.cs, l := t.l, r := t.r, uidx := t.uidx, err := 0 }
  | .pad => t = { s with dout := t.dout, padlen := t.padlen, err := 0 }
  | .mov => t = { s with din := t.din, err := 0 }

/-- The error codes a command can raise: the matrix of R271. -/
def raisable : Instr → List (BitVec 4)
  | .permIp | .permFp | .permE | .permP | .permPc1 | .permPc2 | .sbox | .pad => [6]
  | .keygen => [1]
  | .keyclr | .mov => []
  | .blkEnc | .blkDec => [5, 2]
  | .xfEcbEnc | .xfEcbDec | .xfCbcEnc | .xfCbcDec => [5, 3]
  | .xfCfbEnc | .xfCfbDec | .xfOfbEnc | .xfOfbDec | .xfCtrEnc | .xfCtrDec => [5]
  | .unpad => [7]

end Sys2Proof.Machine
end

