-- ==== Sys2Proof/Certificates/Slice0/Obligations.lean ====
section
/-! DEFINITION. The statements for the provers. Each docstring names the rules of spec/ it formalises; where a clause
rests on the model's own convention it names the assumption log's entry. A state is written `{ s with ... }` wherever
the rules say what a command writes, so the frame (every element left alone) is part of the statement. -/

open Sys2Proof Sys2Proof.Machine

/-! ## Encoding -/

/-- R97: the word of each of the 24 commands, as the opcode map prints it. -/
def Obligations.DecodeReadsTheSpecWords : Prop :=
  (decodeWord 0b00000000 = .command .permIp ∧ decodeWord 0b00000001 = .command .permFp ∧
    decodeWord 0b00000010 = .command .permE ∧ decodeWord 0b00000011 = .command .permP ∧
    decodeWord 0b00000100 = .command .permPc1 ∧ decodeWord 0b00000101 = .command .permPc2 ∧
    decodeWord 0b00000110 = .command .sbox ∧ decodeWord 0b00100000 = .command .keygen ∧
    decodeWord 0b00100001 = .command .keyclr ∧ decodeWord 0b01000000 = .command .blkEnc ∧
    decodeWord 0b01010000 = .command .blkDec) ∧
  (decodeWord 0b01100000 = .command .xfEcbEnc ∧ decodeWord 0b01100001 = .command .xfCbcEnc ∧
    decodeWord 0b01100010 = .command .xfCfbEnc ∧ decodeWord 0b01100011 = .command .xfOfbEnc ∧
    decodeWord 0b01100100 = .command .xfCtrEnc ∧ decodeWord 0b01110000 = .command .xfEcbDec ∧
    decodeWord 0b01110001 = .command .xfCbcDec ∧ decodeWord 0b01110010 = .command .xfCfbDec ∧
    decodeWord 0b01110011 = .command .xfOfbDec ∧ decodeWord 0b01110100 = .command .xfCtrDec) ∧
  (decodeWord 0b10000000 = .command .pad ∧ decodeWord 0b10010000 = .command .unpad ∧
    decodeWord 0b10100000 = .command .mov)

/-- R90, R96, R97: every command is well formed, decoding its word gives it back, and no second word decodes to it. -/
def Obligations.DecodeAndEncodeAgree : Prop :=
  (∀ i : Instr, i.wf = true ∧ decodeWord (encode i) = .command i) ∧
  (∀ (c : Byte) (i : Instr), decodeWord c = .command i → encode i = c)

/-- R94, R98: which words are `unsupported-mode` and which `illegal-command`, range by range, and how many of each. -/
def Obligations.ReservedWordsAreRejectedByKind : Prop :=
  (∀ c : Byte, decodeWord c = .unsupportedMode ↔
    (0x65 ≤ c.toNat ∧ c.toNat ≤ 0x6F) ∨ (0x75 ≤ c.toNat ∧ c.toNat ≤ 0x7F)) ∧
  (∀ c : Byte, decodeWord c = .illegalCommand ↔
    (0x07 ≤ c.toNat ∧ c.toNat ≤ 0x0F) ∨ (0x10 ≤ c.toNat ∧ c.toNat ≤ 0x1F) ∨ (0x22 ≤ c.toNat ∧ c.toNat ≤ 0x2F) ∨
    (0x30 ≤ c.toNat ∧ c.toNat ≤ 0x3F) ∨ (0x41 ≤ c.toNat ∧ c.toNat ≤ 0x4F) ∨ (0x51 ≤ c.toNat ∧ c.toNat ≤ 0x5F) ∨
    (0x81 ≤ c.toNat ∧ c.toNat ≤ 0x8F) ∨ (0x91 ≤ c.toNat ∧ c.toNat ≤ 0x9F) ∨ (0xA1 ≤ c.toNat ∧ c.toNat ≤ 0xAF) ∨
    (0xB0 ≤ c.toNat ∧ c.toNat ≤ 0xBF) ∨ (0xC0 ≤ c.toNat ∧ c.toNat ≤ 0xFF)) ∧
  ((List.range 256).countP fun n => decodeWord (BitVec.ofNat 8 n) == .unsupportedMode) = 22 ∧
  ((List.range 256).countP fun n => decodeWord (BitVec.ofNat 8 n) == .illegalCommand) = 210

/-! ## The step and the host's transactions -/

/-- A step runs the decoded command (R33, R35, R99): the transaction is taken from the host's list (log 2) and nothing
else is added around the command; so does the step of a state made by `withFetchWord` (log 3). -/
def Obligations.StepRunsTheDecodedCommand : Prop :=
  (∀ (s : State) (c : Byte) (rest : List HostEvent) (i : Instr),
    s.pending = .issue c :: rest → decodeWord c = .command i → step s = exec i { s with pending := rest }) ∧
  (∀ (s : State) (v : Nat) (rest : List HostEvent) (i : Instr),
    s.pending = .writeReg 0 v :: rest → decodeWord (BitVec.ofNat 8 (v % 256)) = .command i →
    step s = exec i { s with pending := rest }) ∧
  (∀ (s : State) (i : Instr), step (s.withFetchWord 8 (encode i).toNat) = exec i s)

/-- R255, R258 with the failure entry of R256: a word of group 3 with a mode tag of 5 to 15 fails with code 4 and a
word that is neither that nor a command's fails with code 8, in every state; DOUT is emptied and nothing else changes. -/
def Obligations.RejectedWordsFailByTheWordAlone : Prop :=
  ∀ (s : State) (c : Byte),
    ((c.extractLsb' 5 3 = 3 ∧ 5 ≤ (c.extractLsb' 0 4).toNat) →
      hostIssue c s = .next { s with err := 4, dout := [] }) ∧
    ((∀ i : Instr, encode i ≠ c) → ¬ (c.extractLsb' 5 3 = 3 ∧ 5 ≤ (c.extractLsb' 0 4).toNat) →
      hostIssue c s = .next { s with err := 8, dout := [] })

/-- R35: the five transactions, each with all it changes. Reading K[i] while KVALID = 0 gives 0 in every state that
meets the invariant. Replies and the list of transactions are the model's (log 2). -/
def Obligations.HostTransactionsActAsListed : Prop :=
  ∀ (s : State) (rest : List HostEvent),
    (∀ v : Bits, s.pending = .load v :: rest →
      step s = if withinCapacity v.length then .next { s with pending := rest, din := v } else .refused .loadTooLong) ∧
    (s.pending = .read :: rest → step s = .next { s with pending := rest, replies := s.replies ++ [.bits s.dout] }) ∧
    (∀ n v : Nat, s.pending = .writeReg n v :: rest →
      step s =
        if n = 2 then
          if v < 2 ^ 64 then .next { s with pending := rest, ivreg := BitVec.ofNat 64 v } else .refused .ivregValueTooWide
        else if n = 3 then .next { s with pending := rest, padlen := BitVec.ofNat 7 (v % 128) }
        else if n = 0 then step { s with pending := .issue (BitVec.ofNat 8 (v % 256)) :: rest }
        else .next { s with pending := rest }) ∧
    (∀ n : Nat, s.pending = .readReg n :: rest →
      ∃ v, step s = .next { s with pending := rest, replies := s.replies ++ [.value v] } ∧
        (n = 0 → v = 0) ∧ (n = 1 → v = s.err.toNat + 16 * s.kvalid.toNat) ∧ (n = 2 → v = s.ivreg.toNat) ∧
        (n = 3 → v = s.padlen.toNat) ∧ (n = 4 → v = s.din.length) ∧ (n = 5 → v = s.dout.length) ∧
        (∀ i : Fin 16, n = 0x10 + i.val → v = s.k[i].toNat ∧ (Inv s → s.kvalid = false → v = 0)) ∧
        (6 ≤ n ∧ n ≤ 0x0F → v = 0) ∧ (0x20 ≤ n → v = 0)) ∧
    (∀ c : Byte, s.pending = .issue c :: rest →
      ∃ t, step s = .next t ∧ hostIssue c { s with pending := rest } = .next t ∧ t.pending = rest ∧
        t.replies = s.replies ∧ ∀ i, decodeWord c = .command i → exec i { s with pending := rest } = .next t)

/-- R32: STATUS, register 0x01, is made of ERR and KVALID and its top bits are 0; a host write to it is ignored. -/
def Obligations.StatusShowsErrAndKvalid : Prop :=
  ∀ s : State, (status s).extractLsb' 0 4 = s.err ∧ (status s).extractLsb' 4 1 = BitVec.ofBool s.kvalid ∧
    (status s).extractLsb' 5 3 = 0 ∧ readReg 0x01 s = (status s).toNat ∧
    ∀ v, transact (.writeReg 0x01 v) s = .next s

/-- R28, R29: what the host writes to IVREG, or to PADLEN, is what it reads back (PADLEN: the low 7 bits). The list of
pending transactions is the model's own (log 2). -/
def Obligations.HostReadsBackWhatItWrote : Prop :=
  ∀ (s : State) (v : Nat) (rest : List HostEvent),
    (v < 2 ^ 64 → s.pending = .writeReg 2 v :: .readReg 2 :: rest →
      ∃ t, core.run 2 s = .next t ∧ t.replies = s.replies ++ [.value v] ∧ t.pending = rest) ∧
    (s.pending = .writeReg 3 v :: .readReg 3 :: rest →
      ∃ t, core.run 2 s = .next t ∧ t.replies = s.replies ++ [.value (v % 128)] ∧ t.pending = rest)

/-- R22, R31, R34: a transaction that issues no command (and is not the reset event) can change DIN, IVREG, PADLEN and
what the host has read, and nothing else: not K, not KVALID, not ERR, not DOUT, not a working register. -/
def Obligations.PlainTransactionsReachNoProtectedState : Prop :=
  ∀ (e : HostEvent) (s t : State), issuedWord e = none → e ≠ .reset → transact e s = .next t →
    t = { s with din := t.din, ivreg := t.ivreg, padlen := t.padlen, replies := t.replies }

/-- R270: with no transaction pending the engine holds its state unchanged. The list of pending transactions is the
model's own (log 2). -/
def Obligations.IdleEngineHoldsItsState : Prop :=
  ∀ s : State, s.pending = [] → step s = .next s

/-- R8, R34, D21: under every register map, two numbers never share an address; a bus write or read at the address of a
number, whichever it is, is that register's transaction; at the address of a reserved number the read gives 0 and the
write changes nothing; and an address of no number is no transaction of the engine. REGMAP is an argument (log 7). -/
def Obligations.BusAddressesReachTheirRegisters : Prop :=
  ∀ m : Config.RegMap,
    (∀ n n', m.addr n = m.addr n' → n = n') ∧
    (∀ n v, busWrite m (m.addr n) v = some (.writeReg n v) ∧ busRead m (m.addr n) = some (.readReg n)) ∧
    (∀ (n v : Nat) (s : State), (0x06 ≤ n ∧ n ≤ 0x0F) ∨ 0x20 ≤ n →
      (busRead m (m.addr n)).map (fun e => transact e s) =
        some (.next { s with replies := s.replies ++ [.value 0] }) ∧
      (busWrite m (m.addr n) v).map (fun e => transact e s) = some (.next s)) ∧
    (∀ a v, (∀ n, m.addr n ≠ a) → busWrite m a v = none ∧ busRead m a = none)

/-- R63: the sequence of a list of bytes has bit `7 - j` of byte `i` at index `8*i + j`; the inverse, on a sequence of
whole bytes, has byte `i` made of the same bits; each undoes the other. -/
def Obligations.BytesAreMostSignificantBitFirst : Prop :=
  (∀ bs : List Byte,
    (bytesToBits bs).length = 8 * bs.length ∧
    (∀ i j, i < bs.length → j < 8 → (bytesToBits bs).getD (8 * i + j) false = (bs.getD i 0).getLsbD (7 - j)) ∧
    bitsToBytes (bytesToBits bs) = bs) ∧
  (∀ s : Bits, s.length % 8 = 0 →
    (bitsToBytes s).length = s.length / 8 ∧
    (∀ i j, i < s.length / 8 → j < 8 → ((bitsToBytes s).getD i 0).getLsbD (7 - j) = s.getD (8 * i + j) false) ∧
    bytesToBits (bitsToBytes s) = s)

/-! ## Reset -/

/-- R281: the value of every element after reset. -/
def Obligations.ResetLeavesEverythingZeroAndEmpty : Prop :=
  (∀ i : Fin 16, State.reset.k[i] = 0) ∧ State.reset.kvalid = false ∧ State.reset.c = 0 ∧ State.reset.d = 0 ∧
  State.reset.l = 0 ∧ State.reset.r = 0 ∧ State.reset.cs = 0 ∧ State.reset.uidx = 0 ∧ State.reset.ivreg = 0 ∧
  State.reset.padlen = 0 ∧ State.reset.din = [] ∧ State.reset.dout = [] ∧ State.reset.err = 0 ∧
  status State.reset = 0x00 ∧ readReg 4 State.reset = 0 ∧ readReg 5 State.reset = 0

/-- R280: the reset event may occur in any state and overwrites every engine element; the host's list and what it has
read stay (log 4). -/
def Obligations.ResetEventOverwritesEveryElement : Prop :=
  ∀ (s : State) (rest : List HostEvent), s.pending = .reset :: rest →
    step s = .next { State.reset with pending := rest, replies := s.replies }

/-- R283: what each command does straight after reset. R283 is an inference the spec marks as its own (`[derived:
...]`). -/
def Obligations.CommandsStraightAfterReset : Prop :=
  ∀ (p : List HostEvent) (q : List HostReply) (v : Bits),
    let z : State := { State.reset with pending := p, replies := q }
    exec .keyclr z = .next z ∧ exec .mov z = .next z ∧
    exec .pad z = .next { z with dout := List.replicate 64 false, padlen := 64 } ∧
    exec .unpad z = .next z ∧
    exec .keygen z = .next { z with err := 1 } ∧
    (∀ i ∈ [Instr.permIp, .permFp, .permE, .permP, .permPc1, .permPc2, .sbox], exec i z = .next { z with err := 6 }) ∧
    (∀ i ∈ [Instr.blkEnc, .blkDec, .xfEcbEnc, .xfEcbDec, .xfCbcEnc, .xfCbcDec, .xfCfbEnc, .xfCfbDec, .xfOfbEnc,
        .xfOfbDec, .xfCtrEnc, .xfCtrDec],
      exec i { z with din := v } = .next { z with din := v, err := 5 })

/-! ## The permutation engine -/

/-- R134 to R139 with R120 and R68: each PERM command puts in DOUT the bits of DIN its table names, in the table's
order, when DIN has the table's width, and fails with `invalid-operand-length` otherwise; nothing else changes. -/
def Obligations.PermCommandsSelectTheTablesBits : Prop :=
  ∀ s : State,
    (∀ p ∈ [(Instr.permIp, tableIp, 64), (.permFp, tableFp, 64), (.permE, tableE, 32), (.permP, tableP, 32),
        (.permPc1, tablePc1, 64), (.permPc2, tablePc2, 56)],
      (s.din.length = p.2.2 →
        exec p.1 s = .next { s with dout := p.2.1.map fun t => s.din.getD (t - 1) false, err := 0 }) ∧
      (s.din.length ≠ p.2.2 → exec p.1 s = .next { s with err := 6, dout := [] }))

/-- R140 with R130, R131: SBOX puts in DOUT the eight 4-bit entries that the eight 6-bit groups of DIN select, group
`j` from box `j`, the first and last bit giving the row and the middle four the column. -/
def Obligations.SboxCommandLooksUpEightGroups : Prop :=
  ∀ s : State,
    let g := fun j i : Nat => (s.din.getD (6 * (j - 1) + i) false).toNat
    let entry := fun j : Nat =>
      ((tableS.getD (j - 1) []).getD (2 * g j 0 + g j 5) []).getD (8 * g j 1 + 4 * g j 2 + 2 * g j 3 + g j 4) 0
    (s.din.length = 48 →
      exec .sbox s = .next { s with dout := (List.range' 1 8).flatMap fun j => natToBits 4 (entry j), err := 0 }) ∧
    (s.din.length ≠ 48 → exec .sbox s = .next { s with err := 6, dout := [] })

/-- R132: (a) IP, FP and P are bijections; (b) every index table sends zeros to zeros and ones to ones; (c) a one-hot
input at position `p` gives ones exactly where the table holds `p`; (d) the S-box layer on zeros and on ones. R132 is
an inference the spec marks as its own (`[derived: ...]`). -/
def Obligations.TableFactsOfTheRom : Prop :=
  ((∀ y : BitVec 64, ∃ x : BitVec 64, permute tableIp 64 x = y ∧ ∀ x' : BitVec 64, permute tableIp 64 x' = y → x' = x) ∧
    (∀ y : BitVec 64, ∃ x : BitVec 64, permute tableFp 64 x = y ∧ ∀ x' : BitVec 64, permute tableFp 64 x' = y → x' = x) ∧
    (∀ y : BitVec 32, ∃ x : BitVec 32, permute tableP 32 x = y ∧ ∀ x' : BitVec 32, permute tableP 32 x' = y → x' = x)) ∧
  (∀ q ∈ [(tableIp, 64, 64), (tableFp, 64, 64), (tableE, 32, 48), (tableP, 32, 32), (tablePc1, 64, 56),
      (tablePc2, 56, 48)],
    permute q.1 q.2.2 (0 : BitVec q.2.1) = 0 ∧
    permute q.1 q.2.2 (BitVec.allOnes q.2.1) = BitVec.allOnes q.2.2 ∧
    ∀ p, 1 ≤ p → p ≤ q.2.1 → ∀ j, j < q.2.2 →
      (permute q.1 q.2.2 (BitVec.twoPow q.2.1 (q.2.1 - p))).getMsbD j = decide (q.1.getD j 0 = p)) ∧
  (sboxLayer 0 = 0xEFA72C4D#32 ∧ sboxLayer (BitVec.allOnes 48) = 0xD9CE3DCB#32)

/-- R122 to R129, 93 G1 check 2: the structure of the printed tables. -/
def Obligations.TablesHaveTheirStructure : Prop :=
  (∀ j < 64, tableFp.getD (tableIp.getD j 0 - 1) 0 = j + 1 ∧ tableIp.getD (tableFp.getD j 0 - 1) 0 = j + 1) ∧
  (∀ g < 8, ∀ i < 6, tableE.getD (6 * g + i) 0 = (4 * g + i + 31) % 32 + 1) ∧
  (∀ p < 32, tableP.count (p + 1) = 1) ∧
  (∀ p < 64, tablePc1.count (p + 1) = if (p + 1) % 8 = 0 then 0 else 1) ∧
  (∀ p < 56, tablePc2.count (p + 1) = if p + 1 ∈ [9, 18, 22, 25, 35, 38, 43, 54] then 0 else 1) ∧
  (∀ i < 16, tableShifts.getD i 0 = if i + 1 ∈ [1, 2, 9, 16] then 1 else 2) ∧ tableShifts.sum = 28 ∧
  (∀ j < 8, ∀ r < 4, ∀ v < 16, ((tableS.getD j []).getD r []).count v = 1)

/-- R123, R135: PERM.FP undoes PERM.IP and PERM.IP undoes PERM.FP: with MOV between them, DOUT ends as DIN began. The
list of pending transactions is the model's own (log 2). -/
def Obligations.InitialAndFinalPermutationUndoEachOther : Prop :=
  (∀ x : Block, permute tableFp 64 (permute tableIp 64 x) = x ∧ permute tableIp 64 (permute tableFp 64 x) = x) ∧
  (∀ (s : State) (rest : List HostEvent), s.din.length = 64 →
    (s.pending = .issue 0x00 :: .issue 0xA0 :: .issue 0x01 :: rest ∨
      s.pending = .issue 0x01 :: .issue 0xA0 :: .issue 0x00 :: rest) →
    ∃ t, core.run 3 s = .next t ∧ t.dout = s.din ∧ t.err = 0 ∧ t.pending = rest)

/-! ## The key schedule -/

/-- R163 with R161: KEYGEN loads K[0..15] with the schedule of the key in DIN, sets KVALID, leaves C and D as round 16
left them, and touches nothing else; any other length of DIN fails with `invalid-key-length`. -/
def Obligations.KeygenDerivesTheSubkeySet : Prop :=
  ∀ s : State,
    (s.din.length = 64 →
      ∃ (t : State) (C D : Nat → KeyHalf), exec .keygen s = .next t ∧
        C 0 ++ D 0 = permute tablePc1 56 (ofBits 64 s.din) ∧
        (∀ i : Fin 16,
          C (i.val + 1) = (C i.val).rotateLeft (tableShifts.getD i.val 0) ∧
          D (i.val + 1) = (D i.val).rotateLeft (tableShifts.getD i.val 0) ∧
          t.k[i] = permute tablePc2 48 (C (i.val + 1) ++ D (i.val + 1))) ∧
        t = { s with k := t.k, kvalid := true, c := C 16, d := D 16, err := 0 }) ∧
    (s.din.length ≠ 64 → exec .keygen s = .next { s with err := 1, dout := [] })

/-- R162: (a) keys that differ only at the positions 8, 16, ..., 64 give one subkey set; (b) KEYGEN accepts every
64-bit key; (c) the schedule leaves C and D as they were before round 1; (d) the four special keys. R162 is an
inference the spec marks as its own (`[derived: ...]`). -/
def Obligations.KeyScheduleProperties : Prop :=
  (∀ key key' : Block, (∀ p < 64, p % 8 ≠ 7 → key.getMsbD p = key'.getMsbD p) → subkeysOf key = subkeysOf key') ∧
  (∀ s : State, s.din.length = 64 → ∃ t, exec .keygen s = .next t ∧ t.err = 0 ∧ t.kvalid = true) ∧
  (∀ key : Block, (keySchedule key).2.1 ++ (keySchedule key).2.2 = permute tablePc1 56 key) ∧
  (∀ i : Fin 16, (subkeysOf 0)[i] = 0 ∧ (subkeysOf 0x0101010101010101)[i] = 0 ∧
    (subkeysOf 0xFFFFFFFFFFFFFFFF)[i] = BitVec.allOnes 48 ∧ (subkeysOf 0xFEFEFEFEFEFEFEFE)[i] = BitVec.allOnes 48)

/-- R164: KEYCLR zeroes K[0..15], C and D and clears KVALID, in every state; with KVALID clear every command that uses
the subkeys fails with `no-subkeys`; and no transaction but a KEYGEN of a 64-bit operand sets KVALID again. -/
def Obligations.KeyclrDiscardsTheSubkeySet : Prop :=
  (∀ s : State,
    exec .keyclr s = .next { s with k := Vector.replicate 16 0, kvalid := false, c := 0, d := 0, err := 0 }) ∧
  (∀ s : State, s.kvalid = false →
    ∀ i ∈ [Instr.blkEnc, .blkDec, .xfEcbEnc, .xfEcbDec, .xfCbcEnc, .xfCbcDec, .xfCfbEnc, .xfCfbDec, .xfOfbEnc,
        .xfOfbDec, .xfCtrEnc, .xfCtrDec],
      exec i s = .next { s with err := 5, dout := [] }) ∧
  (∀ (e : HostEvent) (s t : State), transact e s = .next t → s.kvalid = false → t.kvalid = true →
    issuedWord e = some 0x20 ∧ s.din.length = 64)

/-- R165: only a KEYGEN, a KEYCLR or reset writes the subkey registers or KVALID; every other transaction and command
leaves them alone. -/
def Obligations.SubkeysPersist : Prop :=
  ∀ (e : HostEvent) (s t : State), transact e s = .next t → e ≠ .reset →
    issuedWord e ≠ some 0x20 → issuedWord e ≠ some 0x21 → t.k = s.k ∧ t.kvalid = s.kvalid

/-! ## The Feistel block -/

/-- R181 to R184, R186, and the effect of R187: BLK.ENC and BLK.DEC run sixteen rounds on the block in DIN with
the subkeys in the order of the direction; DOUT takes the result, L and R the last pair, and nothing else changes; the
ECB command of that direction gives the same DOUT. With KVALID = 0 they fail with `no-subkeys`, else with
`invalid-block-length` when DIN has not 64 bits. -/
def Obligations.BlockCommandsRunSixteenRounds : Prop :=
  ∀ (s : State), ∀ p ∈ [(Instr.blkEnc, fun i : Nat => i, Instr.xfEcbEnc), (.blkDec, fun i : Nat => 15 - i, .xfEcbDec)],
    (s.kvalid = true → s.din.length = 64 →
      ∃ (t u : State) (L R : Nat → Half), exec p.1 s = .next t ∧
        L 0 ++ R 0 = permute tableIp 64 (ofBits 64 s.din) ∧
        (∀ i < 16, L (i + 1) = R i ∧
          R (i + 1) = L i ^^^
            permute tableP 32 (sboxLayer (permute tableE 48 (R i) ^^^ s.k.toList.getD (p.2.1 i) 0))) ∧
        t = { s with dout := toBits (permute tableFp 64 (R 16 ++ L 16) : Block), l := L 16, r := R 16, err := 0 } ∧
        exec p.2.2 s = .next u ∧ u.dout = t.dout) ∧
    (s.kvalid = false → exec p.1 s = .next { s with err := 5, dout := [] }) ∧
    (s.kvalid = true → s.din.length ≠ 64 → exec p.1 s = .next { s with err := 2, dout := [] })

/-- R185 (a): for any subkey set, decrypting undoes encrypting and encrypting undoes decrypting. R185 is an inference
the spec marks as its own (`[derived: ...]`). -/
def Obligations.BlockEngineUndoesItself : Prop :=
  ∀ (k : SubkeySet) (b : Block),
    blockEngine k .dec (blockEngine k .enc b) = b ∧ blockEngine k .enc (blockEngine k .dec b) = b

/-- R185, R187, at the commands: BLK.ENC, MOV, BLK.DEC (and the other way round) ends with the block DIN began with.
R185 is an inference the spec marks as its own (`[derived: ...]`). The list of pending transactions is the model's own
(log 2). -/
def Obligations.BlockCommandsUndoEachOther : Prop :=
  ∀ (s : State) (rest : List HostEvent), s.kvalid = true → s.din.length = 64 →
    (s.pending = .issue 0x40 :: .issue 0xA0 :: .issue 0x50 :: rest ∨
      s.pending = .issue 0x50 :: .issue 0xA0 :: .issue 0x40 :: rest) →
    ∃ t, core.run 3 s = .next t ∧ t.dout = s.din ∧ t.err = 0 ∧ t.k = s.k ∧ t.pending = rest

/-- R188, 95 V1: the source's known-answer test, through the host's transactions from reset: load the key, KEYGEN,
load the block, BLK.ENC. The list of pending transactions is the model's own (log 2). -/
def Obligations.KnownAnswerTest : Prop :=
  ∃ t, core.run 4 { State.reset with
      pending := [.load (toBits 0x133457799BBCDFF1#64), .issue 0x20, .load (toBits 0x0123456789ABCDEF#64), .issue 0x40] }
      = .next t ∧ t.dout = toBits 0x85E813540F0AB405#64 ∧ t.err = 0 ∧ t.kvalid = true ∧
    t.l = 0x43423234#32 ∧ t.r = 0x0A4CD995#32

/-! ## The mode driver -/

/-- R251: with KVALID = 0, BLK.ENC, BLK.DEC and each of the ten XF commands fail with `no-subkeys`, whatever the length
of DIN; nothing but ERR and DOUT changes. -/
def Obligations.NoSubkeysComesBeforeTheLengthChecks : Prop :=
  ∀ s : State, s.kvalid = false →
    ∀ i ∈ [Instr.blkEnc, .blkDec, .xfEcbEnc, .xfEcbDec, .xfCbcEnc, .xfCbcDec, .xfCfbEnc, .xfCfbDec, .xfOfbEnc,
        .xfOfbDec, .xfCtrEnc, .xfCtrDec],
      exec i s = .next { s with err := 5, dout := [] }

/-- R254: with a subkey set in use, an ECB or CBC transform of a stream that is not a multiple of 64 bits fails with
`invalid-stream-alignment` (with none it fails with `no-subkeys`, R257); CFB, OFB and CTR never do, and no mode does on
the empty stream. -/
def Obligations.MisalignedStreamsFailInEcbAndCbcOnly : Prop :=
  ∀ s : State,
    (s.din.length % 64 ≠ 0 → ∀ i ∈ [Instr.xfEcbEnc, .xfEcbDec, .xfCbcEnc, .xfCbcDec],
      exec i s = .next { s with err := if s.kvalid then 3 else 5, dout := [] }) ∧
    (∀ i ∈ [Instr.xfCfbEnc, .xfCfbDec, .xfOfbEnc, .xfOfbDec, .xfCtrEnc, .xfCtrDec],
      ∃ t, exec i s = .next t ∧ t.err = if s.kvalid then 0 else 5) ∧
    (s.din = [] → ∀ i ∈ [Instr.xfEcbEnc, .xfEcbDec, .xfCbcEnc, .xfCbcDec],
      ∃ t, exec i s = .next t ∧ t.err = if s.kvalid then 0 else 5)

/-- R206: on the empty stream each of the ten XF commands succeeds with DOUT empty and UIDX = 0, and all but ECB's
load CS from IVREG. R206 is an inference the spec marks as its own (`[derived: ...]`). -/
def Obligations.EmptyStreamSucceedsInEveryMode : Prop :=
  ∀ s : State, s.kvalid = true → s.din = [] →
    (∀ i ∈ [Instr.xfEcbEnc, .xfEcbDec], exec i s = .next { s with dout := [], uidx := 0, err := 0 }) ∧
    (∀ i ∈ [Instr.xfCbcEnc, .xfCbcDec, .xfCfbEnc, .xfCfbDec, .xfOfbEnc, .xfOfbDec, .xfCtrEnc, .xfCtrDec],
      exec i s = .next { s with dout := [], uidx := 0, cs := s.ivreg, err := 0 })

/-- R210, and the effect of R211: ECB sends every block of DIN through the block engine on its own; UIDX ends at the
number of blocks, L and R are the last block's, and nothing else changes. On one block the bare block command gives the
same DOUT. -/
def Obligations.EcbTransformsEachBlockAlone : Prop :=
  ∀ (s : State), ∀ p ∈ [(Instr.xfEcbEnc, Direction.enc, Instr.blkEnc), (.xfEcbDec, .dec, .blkDec)],
    let nu := s.din.length / 64
    (s.kvalid = true → s.din.length % 64 = 0 →
      ∃ t, exec p.1 s = .next t ∧ t.dout.length = s.din.length ∧
        (∀ i < nu, blockAt t.dout i = blockEngine s.k p.2.1 (blockAt s.din i)) ∧
        (nu = 1 → ∃ u, exec p.2.2 s = .next u ∧ u.dout = t.dout) ∧
        (nu = 0 → t.l = s.l ∧ t.r = s.r) ∧
        (0 < nu → (t.l, t.r) = feistelHalves s.k p.2.1 (blockAt s.din (nu - 1))) ∧
        t = { s with dout := t.dout, l := t.l, r := t.r, uidx := nu, err := 0 }) ∧
    (s.kvalid = false → exec p.1 s = .next { s with err := 5, dout := [] }) ∧
    (s.kvalid = true → s.din.length % 64 ≠ 0 → exec p.1 s = .next { s with err := 3, dout := [] })

/-- R212: CBC encryption: each ciphertext block is the engine's encryption of the plaintext block XOR the previous
ciphertext block (IVREG before the first), and CS ends as the last ciphertext block. -/
def Obligations.CbcEncryptChainsOnTheOutput : Prop :=
  ∀ s : State,
    let nu := s.din.length / 64
    (s.kvalid = true → s.din.length % 64 = 0 →
      ∃ t, exec .xfCbcEnc s = .next t ∧ t.dout.length = s.din.length ∧
        (∀ i < nu, blockAt t.dout i =
          blockEngine s.k .enc (blockAt s.din i ^^^ if i = 0 then s.ivreg else blockAt t.dout (i - 1))) ∧
        t.cs = (if nu = 0 then s.ivreg else blockAt t.dout (nu - 1)) ∧
        (nu = 0 → t.l = s.l ∧ t.r = s.r) ∧
        (0 < nu → (t.l, t.r) = feistelHalves s.k .enc
          (blockAt s.din (nu - 1) ^^^ if nu = 1 then s.ivreg else blockAt t.dout (nu - 2))) ∧
        t = { s with dout := t.dout, cs := t.cs, l := t.l, r := t.r, uidx := nu, err := 0 }) ∧
    (s.kvalid = false → exec .xfCbcEnc s = .next { s with err := 5, dout := [] }) ∧
    (s.kvalid = true → s.din.length % 64 ≠ 0 → exec .xfCbcEnc s = .next { s with err := 3, dout := [] })

/-- R213: CBC decryption: each plaintext block is the engine's decryption of the ciphertext block XOR the previous
INPUT block (IVREG before the first), and CS ends as the last input block. -/
def Obligations.CbcDecryptChainsOnTheInput : Prop :=
  ∀ s : State,
    let nu := s.din.length / 64
    (s.kvalid = true → s.din.length % 64 = 0 →
      ∃ t, exec .xfCbcDec s = .next t ∧ t.dout.length = s.din.length ∧
        (∀ i < nu, blockAt t.dout i =
          blockEngine s.k .dec (blockAt s.din i) ^^^ (if i = 0 then s.ivreg else blockAt s.din (i - 1))) ∧
        t.cs = (if nu = 0 then s.ivreg else blockAt s.din (nu - 1)) ∧
        (nu = 0 → t.l = s.l ∧ t.r = s.r) ∧
        (0 < nu → (t.l, t.r) = feistelHalves s.k .dec (blockAt s.din (nu - 1))) ∧
        t = { s with dout := t.dout, cs := t.cs, l := t.l, r := t.r, uidx := nu, err := 0 }) ∧
    (s.kvalid = false → exec .xfCbcDec s = .next { s with err := 5, dout := [] }) ∧
    (s.kvalid = true → s.din.length % 64 ≠ 0 → exec .xfCbcDec s = .next { s with err := 3, dout := [] })

/-- R214, R215, R218: CFB in either direction: the register starts as IVREG, each 8-bit segment (the last may be
shorter) is XORed with the first bits of the encrypted register, and the register drops its first 8 bits and takes the
CIPHERTEXT segment at its end: the output segment to encrypt, the input segment to decrypt. -/
def Obligations.CfbFeedsBackTheCiphertextSegment : Prop :=
  ∀ (s : State), ∀ p ∈ [(Instr.xfCfbEnc, fun t : State => t.dout), (.xfCfbDec, fun t : State => t.din)],
    let nu := (s.din.length + 7) / 8
    let seg := fun (b : Bits) (i : Nat) => (b.drop (8 * i)).take 8
    (s.kvalid = true →
      ∃ (t : State) (reg : Nat → Block), exec p.1 s = .next t ∧ t.dout.length = s.din.length ∧ reg 0 = s.ivreg ∧
        (∀ i < nu,
          seg t.dout i = xorBits (seg s.din i)
            ((toBits (blockEngine s.k .enc (reg i))).take (seg s.din i).length) ∧
          toBits (reg (i + 1)) = (toBits (reg i)).drop 8 ++ seg (p.2 t) i
            ++ List.replicate (8 - (seg (p.2 t) i).length) false) ∧
        t.cs = reg nu ∧
        (nu = 0 → t.l = s.l ∧ t.r = s.r) ∧
        (0 < nu → (t.l, t.r) = feistelHalves s.k .enc (reg (nu - 1))) ∧
        t = { s with dout := t.dout, cs := t.cs, l := t.l, r := t.r, uidx := nu, err := 0 }) ∧
    (s.kvalid = false → exec p.1 s = .next { s with err := 5, dout := [] })

/-- R216, and R217's line for line: OFB, the same in both directions: the feedback value starts as IVREG and is
encrypted BEFORE it is used, each unit is XORed with its first bits, and the last unit may be short. -/
def Obligations.OfbEncryptsTheFeedbackBeforeUse : Prop :=
  ∀ (s : State), exec .xfOfbDec s = exec .xfOfbEnc s ∧ ∀ i ∈ [Instr.xfOfbEnc, .xfOfbDec],
    let nu := (s.din.length + 63) / 64
    let unit := fun (b : Bits) (j : Nat) => (b.drop (64 * j)).take 64
    (s.kvalid = true →
      ∃ (t : State) (nonce : Nat → Block), exec i s = .next t ∧ t.dout.length = s.din.length ∧ nonce 0 = s.ivreg ∧
        (∀ j < nu, nonce (j + 1) = blockEngine s.k .enc (nonce j) ∧
          unit t.dout j = xorBits (unit s.din j) ((toBits (nonce (j + 1))).take (unit s.din j).length)) ∧
        t.cs = nonce nu ∧
        (nu = 0 → t.l = s.l ∧ t.r = s.r) ∧
        (0 < nu → (t.l, t.r) = feistelHalves s.k .enc (nonce (nu - 1))) ∧
        t = { s with dout := t.dout, cs := t.cs, l := t.l, r := t.r, uidx := nu, err := 0 }) ∧
    (s.kvalid = false → exec i s = .next { s with err := 5, dout := [] })

/-- R219, R220: CTR, the same in both directions: unit `j` is XORed with the first bits of the encryption of the counter
`(int(IVREG) + j) mod 2^64`, used then incremented; the wrap is silent and the last unit may be short. -/
def Obligations.CtrCountsFromIvregModuloTwoToThe64 : Prop :=
  ∀ (s : State), exec .xfCtrDec s = exec .xfCtrEnc s ∧ ∀ i ∈ [Instr.xfCtrEnc, .xfCtrDec],
    let nu := (s.din.length + 63) / 64
    let unit := fun (b : Bits) (j : Nat) => (b.drop (64 * j)).take 64
    let counter := fun j : Nat => BitVec.ofNat 64 ((s.ivreg.toNat + j) % 2 ^ 64)
    (s.kvalid = true →
      ∃ t, exec i s = .next t ∧ t.dout.length = s.din.length ∧
        (∀ j < nu, unit t.dout j =
          xorBits (unit s.din j) ((toBits (blockEngine s.k .enc (counter j))).take (unit s.din j).length)) ∧
        t.cs = counter nu ∧
        (nu = 0 → t.l = s.l ∧ t.r = s.r) ∧
        (0 < nu → (t.l, t.r) = feistelHalves s.k .enc (counter (nu - 1))) ∧
        t = { s with dout := t.dout, cs := t.cs, l := t.l, r := t.r, uidx := nu, err := 0 }) ∧
    (s.kvalid = false → exec i s = .next { s with err := 5, dout := [] })

/-- R221, the round-trip law: with one subkey set and one IVREG, for every mode and every stream its encryption
accepts, LOAD P, XF.m.ENC, MOV, XF.m.DEC ends with DOUT = P. The form for this hardware in R221 is an inference the
spec marks as its own (`[derived: ...]`). The list of pending transactions is the model's own (log 2). -/
def Obligations.DecryptionUndoesEncryptionInEveryMode : Prop :=
  ∀ (s : State) (P : Bits) (rest : List HostEvent), s.kvalid = true → withinCapacity P.length = true →
    ∀ m ∈ [(0x60#8, 0x70#8, true), (0x61#8, 0x71#8, true), (0x62#8, 0x72#8, false), (0x63#8, 0x73#8, false),
        (0x64#8, 0x74#8, false)],
      (m.2.2 = true → P.length % 64 = 0) →
      s.pending = .load P :: .issue m.1 :: .issue 0xA0 :: .issue m.2.1 :: rest →
      ∃ t, core.run 4 s = .next t ∧ t.dout = P ∧ t.err = 0 ∧ t.k = s.k ∧ t.kvalid = true ∧ t.ivreg = s.ivreg ∧
        t.pending = rest

/-- R223: ECB of two equal blocks has equal halves; CBC of two equal blocks has equal halves exactly when its first
ciphertext block equals IVREG. R223 is an inference the spec marks as its own (`[derived: ...]`). -/
def Obligations.EcbRepeatsAndCbcDoesNot : Prop :=
  ∀ (s : State) (b : Block), s.kvalid = true → s.din = toBits b ++ toBits b →
    (∃ t, exec .xfEcbEnc s = .next t ∧ blockAt t.dout 0 = blockAt t.dout 1) ∧
    (∃ t, exec .xfCbcEnc s = .next t ∧ blockAt t.dout 0 = blockEngine s.k .enc (b ^^^ s.ivreg) ∧
      blockAt t.dout 1 = blockEngine s.k .enc (b ^^^ blockAt t.dout 0) ∧
      (blockAt t.dout 0 = blockAt t.dout 1 ↔ blockAt t.dout 0 = s.ivreg))

/-- R289: a stream split at a block boundary, transformed in two parts, gives the whole stream's result when IVREG is
set in between to the value the rule names: the last ciphertext block of the first part in CBC, the counter advanced
by the number of blocks in CTR, and in ECB any value at all. R289 is an inference the spec marks as its own
(`[derived: ...]`). -/
def Obligations.SplitStreamsContinueFromTheNamedIv : Prop :=
  ∀ (s : State) (iv : Block) (X Y : Bits), s.kvalid = true → X.length % 64 = 0 → 0 < X.length →
    let m := X.length / 64
    let counter := BitVec.ofNat 64 ((s.ivreg.toNat + m) % 2 ^ 64)
    ∀ p ∈ [(Instr.xfEcbEnc, fun _ : Bits => iv, true), (.xfEcbDec, fun _ => iv, true),
        (.xfCbcEnc, fun out => blockAt out (m - 1), true), (.xfCbcDec, fun _ => blockAt X (m - 1), true),
        (.xfCtrEnc, fun _ => counter, false), (.xfCtrDec, fun _ => counter, false)],
      (p.2.2 = true → Y.length % 64 = 0) →
      ∃ t u v, exec p.1 { s with din := X ++ Y } = .next t ∧ exec p.1 { s with din := X } = .next u ∧
        exec p.1 { s with din := Y, ivreg := p.2.1 u.dout } = .next v ∧ t.dout = u.dout ++ v.dout

/-- R289 for CFB: the first part a multiple of 8 bits and at least 64 bits long, the value its last 64 ciphertext
bits. R289 is an inference the spec marks as its own (`[derived: ...]`). -/
def Obligations.SplitCfbStreamsContinueFromTheLastCiphertext : Prop :=
  ∀ (s : State) (X Y : Bits), s.kvalid = true → X.length % 8 = 0 → 64 ≤ X.length →
    ∀ p ∈ [(Instr.xfCfbEnc, fun out : Bits => out.drop (out.length - 64)),
        (.xfCfbDec, fun _ => X.drop (X.length - 64))],
      ∃ t u v, exec p.1 { s with din := X ++ Y } = .next t ∧ exec p.1 { s with din := X } = .next u ∧
        exec p.1 { s with din := Y, ivreg := ofBits 64 (p.2 u.dout) } = .next v ∧ t.dout = u.dout ++ v.dout

/-- R290: decrypting with another IVREG: in CBC the first block differs by the XOR of the two values and every later
block is right; in CFB every segment from segment 8 on is right. R290 is an inference the spec marks as its own
(`[derived: ...]`). -/
def Obligations.WrongIvSpoilsOnlyTheStart : Prop :=
  ∀ (s : State) (iv : Block), s.kvalid = true →
    (s.din.length % 64 = 0 → ∃ t u, exec .xfCbcDec s = .next t ∧ exec .xfCbcDec { s with ivreg := iv } = .next u ∧
      t.dout.length = u.dout.length ∧
      (0 < s.din.length → blockAt u.dout 0 = blockAt t.dout 0 ^^^ s.ivreg ^^^ iv) ∧
      u.dout.drop 64 = t.dout.drop 64) ∧
    (∃ t u, exec .xfCfbDec s = .next t ∧ exec .xfCfbDec { s with ivreg := iv } = .next u ∧
      t.dout.length = u.dout.length ∧ u.dout.drop 64 = t.dout.drop 64)

/-! ## Padding and the buffer move -/

/-- R201, R259 (b): PAD appends 64 - (n mod 64) zero bits and records how many; when the result would not fit it fails
with `invalid-operand-length` and PADLEN keeps its value. Which of the two a length near MAXBITS meets depends on the
open parameter (log 1). -/
def Obligations.PadAppendsZerosAndRecordsHowMany : Prop :=
  ∀ s : State,
    let p := 64 - s.din.length % 64
    exec .pad s = .next
      (if withinCapacity (s.din.length + p) then
        { s with dout := s.din ++ List.replicate p false, padlen := BitVec.ofNat 7 p, err := 0 }
      else { s with err := 6, dout := [] }) ∧
    1 ≤ p ∧ p ≤ 64 ∧ (s.din.length + p) % 64 = 0 ∧ (BitVec.ofNat 7 p).toNat = p ∧
    (s.din.length + p ≤ 128 → exec .pad s = .next
      { s with dout := s.din ++ List.replicate p false, padlen := BitVec.ofNat 7 p, err := 0 })

/-- R202: UNPAD removes the last PADLEN bits, whatever they are, and keeps PADLEN; with PADLEN larger than the stream it
fails with `invalid-pad-length`. -/
def Obligations.UnpadRemovesExactlyPadlenBits : Prop :=
  ∀ s : State,
    (s.padlen.toNat ≤ s.din.length →
      exec .unpad s = .next { s with dout := s.din.take (s.din.length - s.padlen.toNat), err := 0 }) ∧
    (s.din.length < s.padlen.toNat → exec .unpad s = .next { s with err := 7, dout := [] })

/-- R203: MOV copies DOUT into DIN, in every state, changes nothing else but ERR, and is the only command that writes
DIN; loading what the host reads has the same effect on DIN. -/
def Obligations.MovCopiesTheOutputBuffer : Prop :=
  (∀ s : State, exec .mov s = .next { s with din := s.dout, err := 0 }) ∧
  (∀ (i : Instr) (s t : State), exec i s = .next t → i ≠ .mov → t.din = s.din) ∧
  (∀ s : State, Memory.wf s = true → hostLoad s.dout s = .next { s with din := s.dout })

/-- R222, the padding law: LOAD X, PAD, MOV, UNPAD ends with DOUT = X, for every X shorter than MAXBITS. The form for
this hardware in R222 is an inference the spec marks as its own (`[derived: ...]`). The list of pending transactions
is the model's own (log 2). -/
def Obligations.UnpadUndoesPad : Prop :=
  ∀ (s : State) (X : Bits) (rest : List HostEvent), withinCapacity (X.length + 1) = true →
    s.pending = .load X :: .issue 0x80 :: .issue 0xA0 :: .issue 0x90 :: rest →
    ∃ t, core.run 4 s = .next t ∧ t.dout = X ∧ t.err = 0 ∧ t.pending = rest

/-! ## The whole machine -/

/-- R22, R23, R27, R73, R250, R293: every step keeps the invariant: the buffers within capacity, ERR a produced code, no
key material while KVALID = 0, a schedule of some key while KVALID = 1, UIDX within its bound. -/
def Obligations.EveryStepKeepsTheInvariant : Prop :=
  ∀ s t : State, Inv s → step s = .next t → Inv t

/-- The invariant holds at reset, whatever transactions are pending. -/
def Obligations.ResetMeetsTheInvariant : Prop :=
  ∀ (p : List HostEvent) (q : List HostReply), Inv { State.reset with pending := p, replies := q }

/-- R38: the hidden registers cannot be observed: from two states that differ only in C, D, L, R, CS and UIDX, a step
has the same outcome but for those registers, so every later reply is the same. R38 is an inference the spec marks as
its own (`[derived: ...]`). -/
def Obligations.HiddenRegistersCannotBeObserved : Prop :=
  ∀ s t : State, SameVisible s t → SameOutcome (step s) (step t) ∧ status s = status t ∧
    ∀ n, readReg n s = readReg n t

/-- R296: issuing any of the 256 words in any state always completes, with ERR set to success or a produced code. R296
is an inference the spec marks as its own (`[derived: ...]`). -/
def Obligations.EveryCommandWordCompletes : Prop :=
  ∀ (c : Byte) (s : State), ∃ t, hostIssue c s = .next t ∧ t.err.toNat ≤ 8 ∧ t.pending = s.pending ∧
    t.replies = s.replies

/-- R76, R296 with R35's preconditions: a host whose transactions all meet them is never refused: each step takes one
transaction and goes on. The list of pending transactions is the model's own (log 2). -/
def Obligations.LegalScriptsNeverStop : Prop :=
  ∀ s : State, LegalScript s → ∃ t, step s = .next t ∧ t.pending = s.pending.tail ∧ LegalScript t

/-- R271: a command raises no error kind but those of its row of the matrix. R271 is an inference the spec marks as
its own (`[derived: ...]`). -/
def Obligations.CommandsRaiseOnlyTheirOwnErrors : Prop :=
  ∀ (i : Instr) (s : State), ∃ t, exec i s = .next t ∧ (t.err = 0 ∨ t.err ∈ raisable i)

/-- R256: whenever a command fails, ERR takes the code of its kind, DOUT is emptied, and nothing else changes; this holds
of every command and of every rejected word. -/
def Obligations.FailureChangesErrAndDoutOnly : Prop :=
  (∀ (i : Instr) (s t : State), exec i s = .next t → t.err ≠ 0 →
    ∃ kind, t = { s with err := errorCode kind, dout := [] }) ∧
  (∀ (c : Byte) (s t : State), hostIssue c s = .next t → t.err ≠ 0 →
    ∃ kind, t = { s with err := errorCode kind, dout := [] })

/-- R97, the column "writes on success", with R24, R28, R29, R72: a command that succeeds writes the elements of its row
and no other. -/
def Obligations.SuccessWritesOnlyTheNamedElements : Prop :=
  ∀ (i : Instr) (s t : State), exec i s = .next t → t.err = 0 → WritesOnly i s t

/-- R262: no command is refused, or made to act otherwise, because an earlier one failed: its outcome does not depend on
the ERR it finds. -/
def Obligations.EarlierErrorsDoNotMatter : Prop :=
  ∀ (i : Instr) (s : State) (e : BitVec 4), exec i { s with err := e } = exec i s

/-- R95, R97, the column "reads": what a command leaves in ERR, in DOUT (KEYGEN, KEYCLR and MOV write none when they
succeed), and in K, KVALID, C and D (KEYGEN when it succeeds, KEYCLR), in DIN (MOV) and in PADLEN (PAD when it succeeds)
is a function of the elements it reads: two states that agree on those get the same. -/
def Obligations.ResultsDependOnTheReadElementsOnly : Prop :=
  ∀ (i : Instr) (s s' t t' : State), SameOperands i s s' → exec i s = .next t → exec i s' = .next t' →
    t.err = t'.err ∧
    (i ≠ .keygen → i ≠ .keyclr → i ≠ .mov → t.dout = t'.dout) ∧
    (i = .keygen → t.err = 0 → t.k = t'.k ∧ t.kvalid = t'.kvalid ∧ t.c = t'.c ∧ t.d = t'.d) ∧
    (i = .keyclr → t.k = t'.k ∧ t.kvalid = t'.kvalid ∧ t.c = t'.c ∧ t.d = t'.d) ∧
    (i = .mov → t.din = t'.din) ∧ (i = .pad → t.err = 0 → t.padlen = t'.padlen)
end

