-- ==== Sys2Proof/Laws/Bits.lean ====
section
/-! SUPPORT. The small lemmas of bit sequences and their conversions. -/

namespace Sys2Proof.Machine

@[simp] theorem length_natToBits (n v : Nat) : (natToBits n v).length = n := by simp [natToBits]

@[simp] theorem length_toBits {w : Nat} (x : BitVec w) : (toBits x).length = w := by simp [toBits]

@[simp] theorem length_zeros (n : Nat) : (zeros n).length = n := by simp [zeros]

@[simp] theorem length_xorBits (a b : Bits) : (xorBits a b).length = min a.length b.length := by
  simp [xorBits]

@[simp] theorem bitsToNat_nil : bitsToNat [] = 0 := rfl

theorem bitsToNat_concat (s : Bits) (b : Bit) : bitsToNat (s ++ [b]) = 2 * bitsToNat s + b.toNat := by
  simp [bitsToNat]

theorem bitsToNat_lt (s : Bits) : bitsToNat s < 2 ^ s.length := by
  induction s using List.reverseRecOn with
  | nil => simp
  | append_singleton s b ih =>
    have hb : b.toNat ≤ 1 := by cases b <;> simp
    rw [bitsToNat_concat, List.length_append, List.length_singleton, pow_succ]
    omega

/-- Bit `i` of `int(s)`, counted from the least significant, is the `i`-th from the end of `s` (R11). -/
theorem testBit_bitsToNat (s : Bits) (i : Nat) : (bitsToNat s).testBit i = s.reverse.getD i false := by
  induction s using List.reverseRecOn generalizing i with
  | nil => simp
  | append_singleton s b ih =>
    rw [bitsToNat_concat, List.reverse_append]
    cases i with
    | zero => cases b <;> simp [Nat.testBit_zero]
    | succ i =>
      rw [Nat.testBit_succ]
      have hdiv : (2 * bitsToNat s + b.toNat) / 2 = bitsToNat s := by
        cases b
        · simp
        · simp; omega
      rw [hdiv, ih]
      simp

theorem getMsbD_ofBits {w : Nat} {s : Bits} (h : s.length = w) (i : Nat) :
    (ofBits w s).getMsbD i = s.getD i false := by
  subst h
  by_cases hi : i < s.length
  · have hrev : s.length - 1 - i < s.length := by omega
    have hback : s.length - 1 - (s.length - 1 - i) = i := by omega
    simp only [BitVec.getMsbD, ofBits, BitVec.getLsbD_ofNat, testBit_bitsToNat]
    simp [hi, hrev, List.getD_eq_getElem?_getD, hback]
  · simp [BitVec.getMsbD, hi, List.getD_eq_getElem?_getD]

theorem getD_natToBits (n v i : Nat) :
    (natToBits n v).getD i false = (decide (i < n) && v.testBit (n - 1 - i)) := by
  by_cases h : i < n <;> simp [natToBits, List.getD_eq_getElem?_getD, h]

theorem getD_toBits {w : Nat} (x : BitVec w) (i : Nat) : (toBits x).getD i false = x.getMsbD i := by
  rw [toBits, getD_natToBits]
  rfl

/-- Two sequences of one length are equal when their bits are. -/
theorem bits_ext {a b : Bits} (hlen : a.length = b.length) (h : ∀ i, a.getD i false = b.getD i false) :
    a = b := by
  apply List.ext_getElem hlen
  intro i ha hb
  have := h i
  simpa [List.getD_eq_getElem?_getD, ha, hb] using this

@[simp] theorem ofBits_toBits {w : Nat} (x : BitVec w) : ofBits w (toBits x) = x := by
  apply BitVec.eq_of_getMsbD_eq
  intro i _
  rw [getMsbD_ofBits (length_toBits x), getD_toBits]

theorem toBits_ofBits {w : Nat} {s : Bits} (h : s.length = w) : toBits (ofBits w s) = s := by
  apply bits_ext (by simp [h])
  intro i
  rw [getD_toBits, getMsbD_ofBits h]

theorem toBits_injective {w : Nat} {x y : BitVec w} (h : toBits x = toBits y) : x = y := by
  rw [← ofBits_toBits x, h, ofBits_toBits]

theorem getD_append_bits (a b : Bits) (i : Nat) :
    (a ++ b).getD i false = if i < a.length then a.getD i false else b.getD (i - a.length) false := by
  split
  · next h => simp [List.getD_eq_getElem?_getD, List.getElem?_append_left h]
  · next h => simp [List.getD_eq_getElem?_getD, List.getElem?_append_right (Nat.le_of_not_lt h)]

/-- Concatenation of values is concatenation of sequences (R10, R62). -/
theorem toBits_append {v w : Nat} (x : BitVec v) (y : BitVec w) : toBits (x ++ y) = toBits x ++ toBits y := by
  apply bits_ext (by simp)
  intro i
  rw [getD_toBits, getD_append_bits, getD_toBits, getD_toBits, BitVec.getMsbD_append, length_toBits]
  by_cases h : i < v <;> simp [h, Nat.not_le.mpr, Nat.not_lt.mp]

theorem getD_xorBits {a b : Bits} (h : a.length = b.length) (i : Nat) :
    (xorBits a b).getD i false = Bool.xor (a.getD i false) (b.getD i false) := by
  by_cases hi : i < a.length
  · have hb : i < b.length := h ▸ hi
    simp [xorBits, List.getD_eq_getElem?_getD, hi, hb]
  · have hb : ¬ i < b.length := h ▸ hi
    simp [xorBits, List.getD_eq_getElem?_getD, Nat.le_of_not_lt hi, Nat.le_of_not_lt hb]

theorem toBits_xor {w : Nat} (x y : BitVec w) : toBits (x ^^^ y) = xorBits (toBits x) (toBits y) := by
  apply bits_ext (by simp)
  intro i
  rw [getD_xorBits (by simp), getD_toBits, getD_toBits, getD_toBits, BitVec.getMsbD_xor]

/-- XOR with one keystream twice is the identity. -/
theorem xorBits_cancel {a k : Bits} (h : a.length ≤ k.length) : xorBits (xorBits a k) k = a := by
  induction a generalizing k with
  | nil => simp [xorBits]
  | cons x a ih =>
    cases k with
    | nil => simp at h
    | cons y k =>
      have := ih (k := k) (by simpa using h)
      simp only [xorBits, List.zipWith_cons_cons] at this ⊢
      rw [this]
      cases x <;> cases y <;> rfl

@[simp] theorem xorBits_nil (k : Bits) : xorBits [] k = [] := by simp [xorBits]

theorem bytesToBits_cons (b : Byte) (bs : List Byte) : bytesToBits (b :: bs) = toBits b ++ bytesToBits bs := by
  simp [bytesToBits]

@[simp] theorem length_bytesToBits (bs : List Byte) : (bytesToBits bs).length = 8 * bs.length := by
  induction bs with
  | nil => simp [bytesToBits]
  | cons b bs ih => rw [bytesToBits_cons]; simp [ih]; omega

end Sys2Proof.Machine
end

