-- ==== Sys2Proof/Laws/State.lean ====
section
/-! SUPPORT. One lemma per field per state update, each true by rfl, so that no later proof unfolds a record update. -/

namespace Sys2Proof.Machine

@[simp] theorem memWrite_din (v : Bits) (s : State) : (memWrite v s).din = s.din := rfl
@[simp] theorem memWrite_dout (v : Bits) (s : State) : (memWrite v s).dout = s.dout ++ v := rfl
@[simp] theorem memWrite_k (v : Bits) (s : State) : (memWrite v s).k = s.k := rfl
@[simp] theorem memWrite_kvalid (v : Bits) (s : State) : (memWrite v s).kvalid = s.kvalid := rfl
@[simp] theorem memWrite_ivreg (v : Bits) (s : State) : (memWrite v s).ivreg = s.ivreg := rfl
@[simp] theorem memWrite_padlen (v : Bits) (s : State) : (memWrite v s).padlen = s.padlen := rfl
@[simp] theorem memWrite_err (v : Bits) (s : State) : (memWrite v s).err = s.err := rfl
@[simp] theorem memWrite_c (v : Bits) (s : State) : (memWrite v s).c = s.c := rfl
@[simp] theorem memWrite_d (v : Bits) (s : State) : (memWrite v s).d = s.d := rfl
@[simp] theorem memWrite_l (v : Bits) (s : State) : (memWrite v s).l = s.l := rfl
@[simp] theorem memWrite_r (v : Bits) (s : State) : (memWrite v s).r = s.r := rfl
@[simp] theorem memWrite_cs (v : Bits) (s : State) : (memWrite v s).cs = s.cs := rfl
@[simp] theorem memWrite_uidx (v : Bits) (s : State) : (memWrite v s).uidx = s.uidx := rfl
@[simp] theorem memWrite_pending (v : Bits) (s : State) : (memWrite v s).pending = s.pending := rfl
@[simp] theorem memWrite_replies (v : Bits) (s : State) : (memWrite v s).replies = s.replies := rfl

@[simp] theorem raiseError_din (kind : ErrorKind) (s : State) : (raiseError kind s).din = s.din := rfl
@[simp] theorem raiseError_dout (kind : ErrorKind) (s : State) : (raiseError kind s).dout = [] := rfl
@[simp] theorem raiseError_k (kind : ErrorKind) (s : State) : (raiseError kind s).k = s.k := rfl
@[simp] theorem raiseError_kvalid (kind : ErrorKind) (s : State) : (raiseError kind s).kvalid = s.kvalid := rfl
@[simp] theorem raiseError_ivreg (kind : ErrorKind) (s : State) : (raiseError kind s).ivreg = s.ivreg := rfl
@[simp] theorem raiseError_padlen (kind : ErrorKind) (s : State) : (raiseError kind s).padlen = s.padlen := rfl
@[simp] theorem raiseError_err (kind : ErrorKind) (s : State) : (raiseError kind s).err = errorCode kind := rfl
@[simp] theorem raiseError_c (kind : ErrorKind) (s : State) : (raiseError kind s).c = s.c := rfl
@[simp] theorem raiseError_d (kind : ErrorKind) (s : State) : (raiseError kind s).d = s.d := rfl
@[simp] theorem raiseError_l (kind : ErrorKind) (s : State) : (raiseError kind s).l = s.l := rfl
@[simp] theorem raiseError_r (kind : ErrorKind) (s : State) : (raiseError kind s).r = s.r := rfl
@[simp] theorem raiseError_cs (kind : ErrorKind) (s : State) : (raiseError kind s).cs = s.cs := rfl
@[simp] theorem raiseError_uidx (kind : ErrorKind) (s : State) : (raiseError kind s).uidx = s.uidx := rfl
@[simp] theorem raiseError_pending (kind : ErrorKind) (s : State) : (raiseError kind s).pending = s.pending := rfl
@[simp] theorem raiseError_replies (kind : ErrorKind) (s : State) : (raiseError kind s).replies = s.replies := rfl

@[simp] theorem succeed_din (s : State) : (succeed s).din = s.din := rfl
@[simp] theorem succeed_dout (s : State) : (succeed s).dout = s.dout := rfl
@[simp] theorem succeed_k (s : State) : (succeed s).k = s.k := rfl
@[simp] theorem succeed_kvalid (s : State) : (succeed s).kvalid = s.kvalid := rfl
@[simp] theorem succeed_ivreg (s : State) : (succeed s).ivreg = s.ivreg := rfl
@[simp] theorem succeed_padlen (s : State) : (succeed s).padlen = s.padlen := rfl
@[simp] theorem succeed_err (s : State) : (succeed s).err = 0 := rfl
@[simp] theorem succeed_c (s : State) : (succeed s).c = s.c := rfl
@[simp] theorem succeed_d (s : State) : (succeed s).d = s.d := rfl
@[simp] theorem succeed_l (s : State) : (succeed s).l = s.l := rfl
@[simp] theorem succeed_r (s : State) : (succeed s).r = s.r := rfl
@[simp] theorem succeed_cs (s : State) : (succeed s).cs = s.cs := rfl
@[simp] theorem succeed_uidx (s : State) : (succeed s).uidx = s.uidx := rfl
@[simp] theorem succeed_pending (s : State) : (succeed s).pending = s.pending := rfl
@[simp] theorem succeed_replies (s : State) : (succeed s).replies = s.replies := rfl

@[simp] theorem succeedWith_din (v : Bits) (s : State) : (succeedWith v s).din = s.din := rfl
@[simp] theorem succeedWith_dout (v : Bits) (s : State) : (succeedWith v s).dout = v := rfl
@[simp] theorem succeedWith_k (v : Bits) (s : State) : (succeedWith v s).k = s.k := rfl
@[simp] theorem succeedWith_kvalid (v : Bits) (s : State) : (succeedWith v s).kvalid = s.kvalid := rfl
@[simp] theorem succeedWith_ivreg (v : Bits) (s : State) : (succeedWith v s).ivreg = s.ivreg := rfl
@[simp] theorem succeedWith_padlen (v : Bits) (s : State) : (succeedWith v s).padlen = s.padlen := rfl
@[simp] theorem succeedWith_err (v : Bits) (s : State) : (succeedWith v s).err = 0 := rfl
@[simp] theorem succeedWith_c (v : Bits) (s : State) : (succeedWith v s).c = s.c := rfl
@[simp] theorem succeedWith_d (v : Bits) (s : State) : (succeedWith v s).d = s.d := rfl
@[simp] theorem succeedWith_l (v : Bits) (s : State) : (succeedWith v s).l = s.l := rfl
@[simp] theorem succeedWith_r (v : Bits) (s : State) : (succeedWith v s).r = s.r := rfl
@[simp] theorem succeedWith_cs (v : Bits) (s : State) : (succeedWith v s).cs = s.cs := rfl
@[simp] theorem succeedWith_uidx (v : Bits) (s : State) : (succeedWith v s).uidx = s.uidx := rfl
@[simp] theorem succeedWith_pending (v : Bits) (s : State) : (succeedWith v s).pending = s.pending := rfl
@[simp] theorem succeedWith_replies (v : Bits) (s : State) : (succeedWith v s).replies = s.replies := rfl

@[simp] theorem writeIvreg_din (v : Nat) (s : State) : (writeIvreg v s).din = s.din := rfl
@[simp] theorem writeIvreg_dout (v : Nat) (s : State) : (writeIvreg v s).dout = s.dout := rfl
@[simp] theorem writeIvreg_k (v : Nat) (s : State) : (writeIvreg v s).k = s.k := rfl
@[simp] theorem writeIvreg_kvalid (v : Nat) (s : State) : (writeIvreg v s).kvalid = s.kvalid := rfl
@[simp] theorem writeIvreg_ivreg (v : Nat) (s : State) : (writeIvreg v s).ivreg = BitVec.ofNat 64 v := rfl
@[simp] theorem writeIvreg_padlen (v : Nat) (s : State) : (writeIvreg v s).padlen = s.padlen := rfl
@[simp] theorem writeIvreg_err (v : Nat) (s : State) : (writeIvreg v s).err = s.err := rfl
@[simp] theorem writeIvreg_c (v : Nat) (s : State) : (writeIvreg v s).c = s.c := rfl
@[simp] theorem writeIvreg_d (v : Nat) (s : State) : (writeIvreg v s).d = s.d := rfl
@[simp] theorem writeIvreg_l (v : Nat) (s : State) : (writeIvreg v s).l = s.l := rfl
@[simp] theorem writeIvreg_r (v : Nat) (s : State) : (writeIvreg v s).r = s.r := rfl
@[simp] theorem writeIvreg_cs (v : Nat) (s : State) : (writeIvreg v s).cs = s.cs := rfl
@[simp] theorem writeIvreg_uidx (v : Nat) (s : State) : (writeIvreg v s).uidx = s.uidx := rfl
@[simp] theorem writeIvreg_pending (v : Nat) (s : State) : (writeIvreg v s).pending = s.pending := rfl
@[simp] theorem writeIvreg_replies (v : Nat) (s : State) : (writeIvreg v s).replies = s.replies := rfl

@[simp] theorem writePadlen_din (v : Nat) (s : State) : (writePadlen v s).din = s.din := rfl
@[simp] theorem writePadlen_dout (v : Nat) (s : State) : (writePadlen v s).dout = s.dout := rfl
@[simp] theorem writePadlen_k (v : Nat) (s : State) : (writePadlen v s).k = s.k := rfl
@[simp] theorem writePadlen_kvalid (v : Nat) (s : State) : (writePadlen v s).kvalid = s.kvalid := rfl
@[simp] theorem writePadlen_ivreg (v : Nat) (s : State) : (writePadlen v s).ivreg = s.ivreg := rfl
@[simp] theorem writePadlen_padlen (v : Nat) (s : State) : (writePadlen v s).padlen = BitVec.ofNat 7 v := rfl
@[simp] theorem writePadlen_err (v : Nat) (s : State) : (writePadlen v s).err = s.err := rfl
@[simp] theorem writePadlen_c (v : Nat) (s : State) : (writePadlen v s).c = s.c := rfl
@[simp] theorem writePadlen_d (v : Nat) (s : State) : (writePadlen v s).d = s.d := rfl
@[simp] theorem writePadlen_l (v : Nat) (s : State) : (writePadlen v s).l = s.l := rfl
@[simp] theorem writePadlen_r (v : Nat) (s : State) : (writePadlen v s).r = s.r := rfl
@[simp] theorem writePadlen_cs (v : Nat) (s : State) : (writePadlen v s).cs = s.cs := rfl
@[simp] theorem writePadlen_uidx (v : Nat) (s : State) : (writePadlen v s).uidx = s.uidx := rfl
@[simp] theorem writePadlen_pending (v : Nat) (s : State) : (writePadlen v s).pending = s.pending := rfl
@[simp] theorem writePadlen_replies (v : Nat) (s : State) : (writePadlen v s).replies = s.replies := rfl

@[simp] theorem loadDin_din (v : Bits) (s : State) : (loadDin v s).din = v := rfl
@[simp] theorem loadDin_dout (v : Bits) (s : State) : (loadDin v s).dout = s.dout := rfl
@[simp] theorem loadDin_k (v : Bits) (s : State) : (loadDin v s).k = s.k := rfl
@[simp] theorem loadDin_kvalid (v : Bits) (s : State) : (loadDin v s).kvalid = s.kvalid := rfl
@[simp] theorem loadDin_ivreg (v : Bits) (s : State) : (loadDin v s).ivreg = s.ivreg := rfl
@[simp] theorem loadDin_padlen (v : Bits) (s : State) : (loadDin v s).padlen = s.padlen := rfl
@[simp] theorem loadDin_err (v : Bits) (s : State) : (loadDin v s).err = s.err := rfl
@[simp] theorem loadDin_c (v : Bits) (s : State) : (loadDin v s).c = s.c := rfl
@[simp] theorem loadDin_d (v : Bits) (s : State) : (loadDin v s).d = s.d := rfl
@[simp] theorem loadDin_l (v : Bits) (s : State) : (loadDin v s).l = s.l := rfl
@[simp] theorem loadDin_r (v : Bits) (s : State) : (loadDin v s).r = s.r := rfl
@[simp] theorem loadDin_cs (v : Bits) (s : State) : (loadDin v s).cs = s.cs := rfl
@[simp] theorem loadDin_uidx (v : Bits) (s : State) : (loadDin v s).uidx = s.uidx := rfl
@[simp] theorem loadDin_pending (v : Bits) (s : State) : (loadDin v s).pending = s.pending := rfl
@[simp] theorem loadDin_replies (v : Bits) (s : State) : (loadDin v s).replies = s.replies := rfl

@[simp] theorem reply_din (v : HostReply) (s : State) : (reply v s).din = s.din := rfl
@[simp] theorem reply_dout (v : HostReply) (s : State) : (reply v s).dout = s.dout := rfl
@[simp] theorem reply_k (v : HostReply) (s : State) : (reply v s).k = s.k := rfl
@[simp] theorem reply_kvalid (v : HostReply) (s : State) : (reply v s).kvalid = s.kvalid := rfl
@[simp] theorem reply_ivreg (v : HostReply) (s : State) : (reply v s).ivreg = s.ivreg := rfl
@[simp] theorem reply_padlen (v : HostReply) (s : State) : (reply v s).padlen = s.padlen := rfl
@[simp] theorem reply_err (v : HostReply) (s : State) : (reply v s).err = s.err := rfl
@[simp] theorem reply_c (v : HostReply) (s : State) : (reply v s).c = s.c := rfl
@[simp] theorem reply_d (v : HostReply) (s : State) : (reply v s).d = s.d := rfl
@[simp] theorem reply_l (v : HostReply) (s : State) : (reply v s).l = s.l := rfl
@[simp] theorem reply_r (v : HostReply) (s : State) : (reply v s).r = s.r := rfl
@[simp] theorem reply_cs (v : HostReply) (s : State) : (reply v s).cs = s.cs := rfl
@[simp] theorem reply_uidx (v : HostReply) (s : State) : (reply v s).uidx = s.uidx := rfl
@[simp] theorem reply_pending (v : HostReply) (s : State) : (reply v s).pending = s.pending := rfl
@[simp] theorem reply_replies (v : HostReply) (s : State) : (reply v s).replies = s.replies ++ [v] := rfl

@[simp] theorem loadSubkeys_din (key : Block) (s : State) : (loadSubkeys key s).din = s.din := rfl
@[simp] theorem loadSubkeys_dout (key : Block) (s : State) : (loadSubkeys key s).dout = s.dout := rfl
@[simp] theorem loadSubkeys_k (key : Block) (s : State) : (loadSubkeys key s).k = subkeysOf key := rfl
@[simp] theorem loadSubkeys_kvalid (key : Block) (s : State) : (loadSubkeys key s).kvalid = true := rfl
@[simp] theorem loadSubkeys_ivreg (key : Block) (s : State) : (loadSubkeys key s).ivreg = s.ivreg := rfl
@[simp] theorem loadSubkeys_padlen (key : Block) (s : State) : (loadSubkeys key s).padlen = s.padlen := rfl
@[simp] theorem loadSubkeys_err (key : Block) (s : State) : (loadSubkeys key s).err = 0 := rfl
@[simp] theorem loadSubkeys_c (key : Block) (s : State) : (loadSubkeys key s).c = (keySchedule key).2.1 := rfl
@[simp] theorem loadSubkeys_d (key : Block) (s : State) : (loadSubkeys key s).d = (keySchedule key).2.2 := rfl
@[simp] theorem loadSubkeys_l (key : Block) (s : State) : (loadSubkeys key s).l = s.l := rfl
@[simp] theorem loadSubkeys_r (key : Block) (s : State) : (loadSubkeys key s).r = s.r := rfl
@[simp] theorem loadSubkeys_cs (key : Block) (s : State) : (loadSubkeys key s).cs = s.cs := rfl
@[simp] theorem loadSubkeys_uidx (key : Block) (s : State) : (loadSubkeys key s).uidx = s.uidx := rfl
@[simp] theorem loadSubkeys_pending (key : Block) (s : State) : (loadSubkeys key s).pending = s.pending := rfl
@[simp] theorem loadSubkeys_replies (key : Block) (s : State) : (loadSubkeys key s).replies = s.replies := rfl

@[simp] theorem xfBegin_din (s : State) : (xfBegin s).din = s.din := rfl
@[simp] theorem xfBegin_dout (s : State) : (xfBegin s).dout = [] := rfl
@[simp] theorem xfBegin_k (s : State) : (xfBegin s).k = s.k := rfl
@[simp] theorem xfBegin_kvalid (s : State) : (xfBegin s).kvalid = s.kvalid := rfl
@[simp] theorem xfBegin_ivreg (s : State) : (xfBegin s).ivreg = s.ivreg := rfl
@[simp] theorem xfBegin_padlen (s : State) : (xfBegin s).padlen = s.padlen := rfl
@[simp] theorem xfBegin_err (s : State) : (xfBegin s).err = s.err := rfl
@[simp] theorem xfBegin_c (s : State) : (xfBegin s).c = s.c := rfl
@[simp] theorem xfBegin_d (s : State) : (xfBegin s).d = s.d := rfl
@[simp] theorem xfBegin_l (s : State) : (xfBegin s).l = s.l := rfl
@[simp] theorem xfBegin_r (s : State) : (xfBegin s).r = s.r := rfl
@[simp] theorem xfBegin_cs (s : State) : (xfBegin s).cs = s.cs := rfl
@[simp] theorem xfBegin_uidx (s : State) : (xfBegin s).uidx = 0 := rfl
@[simp] theorem xfBegin_pending (s : State) : (xfBegin s).pending = s.pending := rfl
@[simp] theorem xfBegin_replies (s : State) : (xfBegin s).replies = s.replies := rfl

@[simp] theorem loadChain_din (s : State) : (loadChain s).din = s.din := rfl
@[simp] theorem loadChain_dout (s : State) : (loadChain s).dout = s.dout := rfl
@[simp] theorem loadChain_k (s : State) : (loadChain s).k = s.k := rfl
@[simp] theorem loadChain_kvalid (s : State) : (loadChain s).kvalid = s.kvalid := rfl
@[simp] theorem loadChain_ivreg (s : State) : (loadChain s).ivreg = s.ivreg := rfl
@[simp] theorem loadChain_padlen (s : State) : (loadChain s).padlen = s.padlen := rfl
@[simp] theorem loadChain_err (s : State) : (loadChain s).err = s.err := rfl
@[simp] theorem loadChain_c (s : State) : (loadChain s).c = s.c := rfl
@[simp] theorem loadChain_d (s : State) : (loadChain s).d = s.d := rfl
@[simp] theorem loadChain_l (s : State) : (loadChain s).l = s.l := rfl
@[simp] theorem loadChain_r (s : State) : (loadChain s).r = s.r := rfl
@[simp] theorem loadChain_cs (s : State) : (loadChain s).cs = s.ivreg := rfl
@[simp] theorem loadChain_uidx (s : State) : (loadChain s).uidx = s.uidx := rfl
@[simp] theorem loadChain_pending (s : State) : (loadChain s).pending = s.pending := rfl
@[simp] theorem loadChain_replies (s : State) : (loadChain s).replies = s.replies := rfl

@[simp] theorem callEngine_result (dir : Direction) (b : Block) (s : State) : (callEngine dir b s).1 = blockEngine s.k dir b := rfl
@[simp] theorem callEngine_din (dir : Direction) (b : Block) (s : State) : (callEngine dir b s).2.din = s.din := rfl
@[simp] theorem callEngine_dout (dir : Direction) (b : Block) (s : State) : (callEngine dir b s).2.dout = s.dout := rfl
@[simp] theorem callEngine_k (dir : Direction) (b : Block) (s : State) : (callEngine dir b s).2.k = s.k := rfl
@[simp] theorem callEngine_kvalid (dir : Direction) (b : Block) (s : State) : (callEngine dir b s).2.kvalid = s.kvalid := rfl
@[simp] theorem callEngine_ivreg (dir : Direction) (b : Block) (s : State) : (callEngine dir b s).2.ivreg = s.ivreg := rfl
@[simp] theorem callEngine_padlen (dir : Direction) (b : Block) (s : State) : (callEngine dir b s).2.padlen = s.padlen := rfl
@[simp] theorem callEngine_err (dir : Direction) (b : Block) (s : State) : (callEngine dir b s).2.err = s.err := rfl
@[simp] theorem callEngine_c (dir : Direction) (b : Block) (s : State) : (callEngine dir b s).2.c = s.c := rfl
@[simp] theorem callEngine_d (dir : Direction) (b : Block) (s : State) : (callEngine dir b s).2.d = s.d := rfl
@[simp] theorem callEngine_l (dir : Direction) (b : Block) (s : State) : (callEngine dir b s).2.l = (feistelHalves s.k dir b).1 := rfl
@[simp] theorem callEngine_r (dir : Direction) (b : Block) (s : State) : (callEngine dir b s).2.r = (feistelHalves s.k dir b).2 := rfl
@[simp] theorem callEngine_cs (dir : Direction) (b : Block) (s : State) : (callEngine dir b s).2.cs = s.cs := rfl
@[simp] theorem callEngine_uidx (dir : Direction) (b : Block) (s : State) : (callEngine dir b s).2.uidx = s.uidx := rfl
@[simp] theorem callEngine_pending (dir : Direction) (b : Block) (s : State) : (callEngine dir b s).2.pending = s.pending := rfl
@[simp] theorem callEngine_replies (dir : Direction) (b : Block) (s : State) : (callEngine dir b s).2.replies = s.replies := rfl

@[simp] theorem applyReset_din (s : State) : (applyReset s).din = [] := rfl
@[simp] theorem applyReset_dout (s : State) : (applyReset s).dout = [] := rfl
@[simp] theorem applyReset_k (s : State) : (applyReset s).k = zeroSubkeys := rfl
@[simp] theorem applyReset_kvalid (s : State) : (applyReset s).kvalid = false := rfl
@[simp] theorem applyReset_ivreg (s : State) : (applyReset s).ivreg = 0 := rfl
@[simp] theorem applyReset_padlen (s : State) : (applyReset s).padlen = 0 := rfl
@[simp] theorem applyReset_err (s : State) : (applyReset s).err = 0 := rfl
@[simp] theorem applyReset_c (s : State) : (applyReset s).c = 0 := rfl
@[simp] theorem applyReset_d (s : State) : (applyReset s).d = 0 := rfl
@[simp] theorem applyReset_l (s : State) : (applyReset s).l = 0 := rfl
@[simp] theorem applyReset_r (s : State) : (applyReset s).r = 0 := rfl
@[simp] theorem applyReset_cs (s : State) : (applyReset s).cs = 0 := rfl
@[simp] theorem applyReset_uidx (s : State) : (applyReset s).uidx = 0 := rfl
@[simp] theorem applyReset_pending (s : State) : (applyReset s).pending = s.pending := rfl
@[simp] theorem applyReset_replies (s : State) : (applyReset s).replies = s.replies := rfl

@[simp] theorem ecbUnit_din (dir : Direction) (u : Bits) (s : State) : (ecbUnit dir u s).din = s.din := rfl
@[simp] theorem ecbUnit_dout (dir : Direction) (u : Bits) (s : State) : (ecbUnit dir u s).dout =
    s.dout ++ toBits (blockEngine s.k dir (ofBits 64 u)) := rfl
@[simp] theorem ecbUnit_k (dir : Direction) (u : Bits) (s : State) : (ecbUnit dir u s).k = s.k := rfl
@[simp] theorem ecbUnit_kvalid (dir : Direction) (u : Bits) (s : State) : (ecbUnit dir u s).kvalid = s.kvalid := rfl
@[simp] theorem ecbUnit_ivreg (dir : Direction) (u : Bits) (s : State) : (ecbUnit dir u s).ivreg = s.ivreg := rfl
@[simp] theorem ecbUnit_padlen (dir : Direction) (u : Bits) (s : State) : (ecbUnit dir u s).padlen = s.padlen := rfl
@[simp] theorem ecbUnit_err (dir : Direction) (u : Bits) (s : State) : (ecbUnit dir u s).err = s.err := rfl
@[simp] theorem ecbUnit_c (dir : Direction) (u : Bits) (s : State) : (ecbUnit dir u s).c = s.c := rfl
@[simp] theorem ecbUnit_d (dir : Direction) (u : Bits) (s : State) : (ecbUnit dir u s).d = s.d := rfl
@[simp] theorem ecbUnit_l (dir : Direction) (u : Bits) (s : State) : (ecbUnit dir u s).l =
    (feistelHalves s.k dir (ofBits 64 u)).1 := rfl
@[simp] theorem ecbUnit_r (dir : Direction) (u : Bits) (s : State) : (ecbUnit dir u s).r =
    (feistelHalves s.k dir (ofBits 64 u)).2 := rfl
@[simp] theorem ecbUnit_cs (dir : Direction) (u : Bits) (s : State) : (ecbUnit dir u s).cs = s.cs := rfl
@[simp] theorem ecbUnit_uidx (dir : Direction) (u : Bits) (s : State) : (ecbUnit dir u s).uidx = s.uidx := rfl
@[simp] theorem ecbUnit_pending (dir : Direction) (u : Bits) (s : State) : (ecbUnit dir u s).pending = s.pending := rfl
@[simp] theorem ecbUnit_replies (dir : Direction) (u : Bits) (s : State) : (ecbUnit dir u s).replies = s.replies := rfl

@[simp] theorem cbcEncUnit_din (u : Bits) (s : State) : (cbcEncUnit u s).din = s.din := rfl
@[simp] theorem cbcEncUnit_dout (u : Bits) (s : State) : (cbcEncUnit u s).dout =
    s.dout ++ toBits (blockEngine s.k .enc (ofBits 64 u ^^^ s.cs)) := rfl
@[simp] theorem cbcEncUnit_k (u : Bits) (s : State) : (cbcEncUnit u s).k = s.k := rfl
@[simp] theorem cbcEncUnit_kvalid (u : Bits) (s : State) : (cbcEncUnit u s).kvalid = s.kvalid := rfl
@[simp] theorem cbcEncUnit_ivreg (u : Bits) (s : State) : (cbcEncUnit u s).ivreg = s.ivreg := rfl
@[simp] theorem cbcEncUnit_padlen (u : Bits) (s : State) : (cbcEncUnit u s).padlen = s.padlen := rfl
@[simp] theorem cbcEncUnit_err (u : Bits) (s : State) : (cbcEncUnit u s).err = s.err := rfl
@[simp] theorem cbcEncUnit_c (u : Bits) (s : State) : (cbcEncUnit u s).c = s.c := rfl
@[simp] theorem cbcEncUnit_d (u : Bits) (s : State) : (cbcEncUnit u s).d = s.d := rfl
@[simp] theorem cbcEncUnit_l (u : Bits) (s : State) : (cbcEncUnit u s).l =
    (feistelHalves s.k .enc (ofBits 64 u ^^^ s.cs)).1 := rfl
@[simp] theorem cbcEncUnit_r (u : Bits) (s : State) : (cbcEncUnit u s).r =
    (feistelHalves s.k .enc (ofBits 64 u ^^^ s.cs)).2 := rfl
@[simp] theorem cbcEncUnit_cs (u : Bits) (s : State) : (cbcEncUnit u s).cs =
    blockEngine s.k .enc (ofBits 64 u ^^^ s.cs) := rfl
@[simp] theorem cbcEncUnit_uidx (u : Bits) (s : State) : (cbcEncUnit u s).uidx = s.uidx := rfl
@[simp] theorem cbcEncUnit_pending (u : Bits) (s : State) : (cbcEncUnit u s).pending = s.pending := rfl
@[simp] theorem cbcEncUnit_replies (u : Bits) (s : State) : (cbcEncUnit u s).replies = s.replies := rfl

@[simp] theorem cbcDecUnit_din (u : Bits) (s : State) : (cbcDecUnit u s).din = s.din := rfl
@[simp] theorem cbcDecUnit_dout (u : Bits) (s : State) : (cbcDecUnit u s).dout =
    s.dout ++ toBits (blockEngine s.k .dec (ofBits 64 u) ^^^ s.cs) := rfl
@[simp] theorem cbcDecUnit_k (u : Bits) (s : State) : (cbcDecUnit u s).k = s.k := rfl
@[simp] theorem cbcDecUnit_kvalid (u : Bits) (s : State) : (cbcDecUnit u s).kvalid = s.kvalid := rfl
@[simp] theorem cbcDecUnit_ivreg (u : Bits) (s : State) : (cbcDecUnit u s).ivreg = s.ivreg := rfl
@[simp] theorem cbcDecUnit_padlen (u : Bits) (s : State) : (cbcDecUnit u s).padlen = s.padlen := rfl
@[simp] theorem cbcDecUnit_err (u : Bits) (s : State) : (cbcDecUnit u s).err = s.err := rfl
@[simp] theorem cbcDecUnit_c (u : Bits) (s : State) : (cbcDecUnit u s).c = s.c := rfl
@[simp] theorem cbcDecUnit_d (u : Bits) (s : State) : (cbcDecUnit u s).d = s.d := rfl
@[simp] theorem cbcDecUnit_l (u : Bits) (s : State) : (cbcDecUnit u s).l =
    (feistelHalves s.k .dec (ofBits 64 u)).1 := rfl
@[simp] theorem cbcDecUnit_r (u : Bits) (s : State) : (cbcDecUnit u s).r =
    (feistelHalves s.k .dec (ofBits 64 u)).2 := rfl
@[simp] theorem cbcDecUnit_cs (u : Bits) (s : State) : (cbcDecUnit u s).cs = ofBits 64 u := rfl
@[simp] theorem cbcDecUnit_uidx (u : Bits) (s : State) : (cbcDecUnit u s).uidx = s.uidx := rfl
@[simp] theorem cbcDecUnit_pending (u : Bits) (s : State) : (cbcDecUnit u s).pending = s.pending := rfl
@[simp] theorem cbcDecUnit_replies (u : Bits) (s : State) : (cbcDecUnit u s).replies = s.replies := rfl

@[simp] theorem cfbEncUnit_din (u : Bits) (s : State) : (cfbEncUnit u s).din = s.din := rfl
@[simp] theorem cfbEncUnit_dout (u : Bits) (s : State) : (cfbEncUnit u s).dout =
    s.dout ++ xorBits u (keystream (blockEngine s.k .enc s.cs) u) := rfl
@[simp] theorem cfbEncUnit_k (u : Bits) (s : State) : (cfbEncUnit u s).k = s.k := rfl
@[simp] theorem cfbEncUnit_kvalid (u : Bits) (s : State) : (cfbEncUnit u s).kvalid = s.kvalid := rfl
@[simp] theorem cfbEncUnit_ivreg (u : Bits) (s : State) : (cfbEncUnit u s).ivreg = s.ivreg := rfl
@[simp] theorem cfbEncUnit_padlen (u : Bits) (s : State) : (cfbEncUnit u s).padlen = s.padlen := rfl
@[simp] theorem cfbEncUnit_err (u : Bits) (s : State) : (cfbEncUnit u s).err = s.err := rfl
@[simp] theorem cfbEncUnit_c (u : Bits) (s : State) : (cfbEncUnit u s).c = s.c := rfl
@[simp] theorem cfbEncUnit_d (u : Bits) (s : State) : (cfbEncUnit u s).d = s.d := rfl
@[simp] theorem cfbEncUnit_l (u : Bits) (s : State) : (cfbEncUnit u s).l =
    (feistelHalves s.k .enc s.cs).1 := rfl
@[simp] theorem cfbEncUnit_r (u : Bits) (s : State) : (cfbEncUnit u s).r =
    (feistelHalves s.k .enc s.cs).2 := rfl
@[simp] theorem cfbEncUnit_cs (u : Bits) (s : State) : (cfbEncUnit u s).cs =
    shiftIn s.cs (xorBits u (keystream (blockEngine s.k .enc s.cs) u)) := rfl
@[simp] theorem cfbEncUnit_uidx (u : Bits) (s : State) : (cfbEncUnit u s).uidx = s.uidx := rfl
@[simp] theorem cfbEncUnit_pending (u : Bits) (s : State) : (cfbEncUnit u s).pending = s.pending := rfl
@[simp] theorem cfbEncUnit_replies (u : Bits) (s : State) : (cfbEncUnit u s).replies = s.replies := rfl

@[simp] theorem cfbDecUnit_din (u : Bits) (s : State) : (cfbDecUnit u s).din = s.din := rfl
@[simp] theorem cfbDecUnit_dout (u : Bits) (s : State) : (cfbDecUnit u s).dout =
    s.dout ++ xorBits u (keystream (blockEngine s.k .enc s.cs) u) := rfl
@[simp] theorem cfbDecUnit_k (u : Bits) (s : State) : (cfbDecUnit u s).k = s.k := rfl
@[simp] theorem cfbDecUnit_kvalid (u : Bits) (s : State) : (cfbDecUnit u s).kvalid = s.kvalid := rfl
@[simp] theorem cfbDecUnit_ivreg (u : Bits) (s : State) : (cfbDecUnit u s).ivreg = s.ivreg := rfl
@[simp] theorem cfbDecUnit_padlen (u : Bits) (s : State) : (cfbDecUnit u s).padlen = s.padlen := rfl
@[simp] theorem cfbDecUnit_err (u : Bits) (s : State) : (cfbDecUnit u s).err = s.err := rfl
@[simp] theorem cfbDecUnit_c (u : Bits) (s : State) : (cfbDecUnit u s).c = s.c := rfl
@[simp] theorem cfbDecUnit_d (u : Bits) (s : State) : (cfbDecUnit u s).d = s.d := rfl
@[simp] theorem cfbDecUnit_l (u : Bits) (s : State) : (cfbDecUnit u s).l =
    (feistelHalves s.k .enc s.cs).1 := rfl
@[simp] theorem cfbDecUnit_r (u : Bits) (s : State) : (cfbDecUnit u s).r =
    (feistelHalves s.k .enc s.cs).2 := rfl
@[simp] theorem cfbDecUnit_cs (u : Bits) (s : State) : (cfbDecUnit u s).cs = shiftIn s.cs u := rfl
@[simp] theorem cfbDecUnit_uidx (u : Bits) (s : State) : (cfbDecUnit u s).uidx = s.uidx := rfl
@[simp] theorem cfbDecUnit_pending (u : Bits) (s : State) : (cfbDecUnit u s).pending = s.pending := rfl
@[simp] theorem cfbDecUnit_replies (u : Bits) (s : State) : (cfbDecUnit u s).replies = s.replies := rfl

@[simp] theorem ofbUnit_din (u : Bits) (s : State) : (ofbUnit u s).din = s.din := rfl
@[simp] theorem ofbUnit_dout (u : Bits) (s : State) : (ofbUnit u s).dout =
    s.dout ++ xorBits u (keystream (blockEngine s.k .enc s.cs) u) := rfl
@[simp] theorem ofbUnit_k (u : Bits) (s : State) : (ofbUnit u s).k = s.k := rfl
@[simp] theorem ofbUnit_kvalid (u : Bits) (s : State) : (ofbUnit u s).kvalid = s.kvalid := rfl
@[simp] theorem ofbUnit_ivreg (u : Bits) (s : State) : (ofbUnit u s).ivreg = s.ivreg := rfl
@[simp] theorem ofbUnit_padlen (u : Bits) (s : State) : (ofbUnit u s).padlen = s.padlen := rfl
@[simp] theorem ofbUnit_err (u : Bits) (s : State) : (ofbUnit u s).err = s.err := rfl
@[simp] theorem ofbUnit_c (u : Bits) (s : State) : (ofbUnit u s).c = s.c := rfl
@[simp] theorem ofbUnit_d (u : Bits) (s : State) : (ofbUnit u s).d = s.d := rfl
@[simp] theorem ofbUnit_l (u : Bits) (s : State) : (ofbUnit u s).l =
    (feistelHalves s.k .enc s.cs).1 := rfl
@[simp] theorem ofbUnit_r (u : Bits) (s : State) : (ofbUnit u s).r =
    (feistelHalves s.k .enc s.cs).2 := rfl
@[simp] theorem ofbUnit_cs (u : Bits) (s : State) : (ofbUnit u s).cs = blockEngine s.k .enc s.cs := rfl
@[simp] theorem ofbUnit_uidx (u : Bits) (s : State) : (ofbUnit u s).uidx = s.uidx := rfl
@[simp] theorem ofbUnit_pending (u : Bits) (s : State) : (ofbUnit u s).pending = s.pending := rfl
@[simp] theorem ofbUnit_replies (u : Bits) (s : State) : (ofbUnit u s).replies = s.replies := rfl

@[simp] theorem ctrUnit_din (m : Nat) (u : Bits) (s : State) : (ctrUnit m u s).din = s.din := rfl
@[simp] theorem ctrUnit_dout (m : Nat) (u : Bits) (s : State) : (ctrUnit m u s).dout =
    s.dout ++ xorBits u (keystream (blockEngine s.k .enc s.cs) u) := rfl
@[simp] theorem ctrUnit_k (m : Nat) (u : Bits) (s : State) : (ctrUnit m u s).k = s.k := rfl
@[simp] theorem ctrUnit_kvalid (m : Nat) (u : Bits) (s : State) : (ctrUnit m u s).kvalid = s.kvalid := rfl
@[simp] theorem ctrUnit_ivreg (m : Nat) (u : Bits) (s : State) : (ctrUnit m u s).ivreg = s.ivreg := rfl
@[simp] theorem ctrUnit_padlen (m : Nat) (u : Bits) (s : State) : (ctrUnit m u s).padlen = s.padlen := rfl
@[simp] theorem ctrUnit_err (m : Nat) (u : Bits) (s : State) : (ctrUnit m u s).err = s.err := rfl
@[simp] theorem ctrUnit_c (m : Nat) (u : Bits) (s : State) : (ctrUnit m u s).c = s.c := rfl
@[simp] theorem ctrUnit_d (m : Nat) (u : Bits) (s : State) : (ctrUnit m u s).d = s.d := rfl
@[simp] theorem ctrUnit_l (m : Nat) (u : Bits) (s : State) : (ctrUnit m u s).l =
    (feistelHalves s.k .enc s.cs).1 := rfl
@[simp] theorem ctrUnit_r (m : Nat) (u : Bits) (s : State) : (ctrUnit m u s).r =
    (feistelHalves s.k .enc s.cs).2 := rfl
@[simp] theorem ctrUnit_cs (m : Nat) (u : Bits) (s : State) : (ctrUnit m u s).cs = nextCounter m s.cs := rfl
@[simp] theorem ctrUnit_uidx (m : Nat) (u : Bits) (s : State) : (ctrUnit m u s).uidx = s.uidx := rfl
@[simp] theorem ctrUnit_pending (m : Nat) (u : Bits) (s : State) : (ctrUnit m u s).pending = s.pending := rfl
@[simp] theorem ctrUnit_replies (m : Nat) (u : Bits) (s : State) : (ctrUnit m u s).replies = s.replies := rfl

@[simp] theorem xfIteration_din (body : Bits → State → State) (s : State) (u : Bits) : (xfIteration body s u).din = (body u s).din := rfl
@[simp] theorem xfIteration_dout (body : Bits → State → State) (s : State) (u : Bits) : (xfIteration body s u).dout = (body u s).dout := rfl
@[simp] theorem xfIteration_k (body : Bits → State → State) (s : State) (u : Bits) : (xfIteration body s u).k = (body u s).k := rfl
@[simp] theorem xfIteration_kvalid (body : Bits → State → State) (s : State) (u : Bits) : (xfIteration body s u).kvalid = (body u s).kvalid := rfl
@[simp] theorem xfIteration_ivreg (body : Bits → State → State) (s : State) (u : Bits) : (xfIteration body s u).ivreg = (body u s).ivreg := rfl
@[simp] theorem xfIteration_padlen (body : Bits → State → State) (s : State) (u : Bits) : (xfIteration body s u).padlen = (body u s).padlen := rfl
@[simp] theorem xfIteration_err (body : Bits → State → State) (s : State) (u : Bits) : (xfIteration body s u).err = (body u s).err := rfl
@[simp] theorem xfIteration_c (body : Bits → State → State) (s : State) (u : Bits) : (xfIteration body s u).c = (body u s).c := rfl
@[simp] theorem xfIteration_d (body : Bits → State → State) (s : State) (u : Bits) : (xfIteration body s u).d = (body u s).d := rfl
@[simp] theorem xfIteration_l (body : Bits → State → State) (s : State) (u : Bits) : (xfIteration body s u).l = (body u s).l := rfl
@[simp] theorem xfIteration_r (body : Bits → State → State) (s : State) (u : Bits) : (xfIteration body s u).r = (body u s).r := rfl
@[simp] theorem xfIteration_cs (body : Bits → State → State) (s : State) (u : Bits) : (xfIteration body s u).cs = (body u s).cs := rfl
@[simp] theorem xfIteration_uidx (body : Bits → State → State) (s : State) (u : Bits) : (xfIteration body s u).uidx = (body u s).uidx + 1 := rfl
@[simp] theorem xfIteration_pending (body : Bits → State → State) (s : State) (u : Bits) : (xfIteration body s u).pending = (body u s).pending := rfl
@[simp] theorem xfIteration_replies (body : Bits → State → State) (s : State) (u : Bits) : (xfIteration body s u).replies = (body u s).replies := rfl

end Sys2Proof.Machine
end

