-- ==== Sys2Proof/Laws/Operands.lean ====
section
/-! SUPPORT. The operand forms: reading a buffer, the fixed-width operand, the units of a stream, and the loop over
them. -/

namespace Sys2Proof.Machine

/-- The capacity test agrees with MAXBITS whatever the open parameter is (R8, R73). -/
theorem fits_eq (n : Nat) : fits n = Config.maxBits.all fun m => decide (n ≤ m) := by
  unfold fits Config.maxBits
  cases Config.extraBlocks with
  | none => simp
  | some k => by_cases h : n ≤ 128 <;> simp [h]; omega

theorem fits_of_le {m n : Nat} (h : m ≤ n) (hn : fits n = true) : fits m = true := by
  rw [fits_eq] at *
  cases hb : Config.maxBits with
  | none => simp
  | some b => simp [hb] at hn ⊢; omega

/-- Every legal capacity holds 128 bits (R8). -/
theorem fits_small {n : Nat} (h : n ≤ 128) : fits n = true := by simp [fits, h]

theorem length_memRead (buf : Bits) (off n : Nat) : (memRead buf off n).length = min n (buf.length - off) := by
  simp [memRead]

theorem getD_memRead {buf : Bits} {off n i : Nat} (h : i < n) :
    (memRead buf off n).getD i false = buf.getD (off + i) false := by
  simp [memRead, List.getD_eq_getElem?_getD, h]

/-- Everything the fixed-width operand form can do (R68). -/
theorem withOperand_cases (w : Nat) (kind : ErrorKind) (run : BitVec w → State → State) (s : State) :
    (s.din.length = w ∧ withOperand w kind run s = run (ofBits w s.din) s) ∨
    (s.din.length ≠ w ∧ withOperand w kind run s = raiseError kind s) := by
  by_cases h : s.din.length = w
  · exact .inl ⟨h, if_pos h⟩
  · exact .inr ⟨h, if_neg h⟩

theorem withOperand_run {w : Nat} {kind : ErrorKind} {run : BitVec w → State → State} {s : State}
    (h : s.din.length = w) : withOperand w kind run s = run (ofBits w s.din) s := if_pos h

theorem withOperand_fail {w : Nat} {kind : ErrorKind} {run : BitVec w → State → State} {s : State}
    (h : s.din.length ≠ w) : withOperand w kind run s = raiseError kind s := if_neg h

theorem length_unitAt (w : Nat) (stream : Bits) (i : Nat) :
    (unitAt w stream i).length = min w (stream.length - w * i) := by
  simp [unitAt, length_memRead]

/-- A unit, without the arithmetic of its length. -/
theorem unitAt_eq (w : Nat) (stream : Bits) (i : Nat) : unitAt w stream i = (stream.drop (w * i)).take w := by
  unfold unitAt memRead
  rw [← List.length_drop, List.take_eq_take_min]
  simp

/-- An index below the unit count is the index of a non-empty unit (R65, R66). -/
theorem lt_unitCount {w n i : Nat} (hw : 0 < w) : i < unitCount w n ↔ w * i < n := by
  unfold unitCount
  rw [Nat.lt_div_iff_mul_lt hw]
  have := Nat.mul_comm i w
  omega

theorem unitCount_mul (w m : Nat) (hw : 0 < w) : unitCount w (w * m) = m := by
  unfold unitCount
  rw [Nat.add_sub_assoc hw, Nat.mul_comm, Nat.add_comm, Nat.add_mul_div_right _ _ hw]
  rw [Nat.div_eq_of_lt (by omega), Nat.zero_add]

theorem unitCount_dvd {w n : Nat} (hw : 0 < w) (h : n % w = 0) : unitCount w n = n / w := by
  obtain ⟨m, rfl⟩ := Nat.dvd_of_mod_eq_zero h
  rw [unitCount_mul w m hw, Nat.mul_div_cancel_left _ hw]

/-- Below a whole number of units, every unit has the full width. -/
theorem length_unitAt_full {w : Nat} {stream : Bits} {i : Nat} (hw : 0 < w) (h : stream.length % w = 0)
    (hi : i < unitCount w stream.length) : (unitAt w stream i).length = w := by
  rw [length_unitAt]
  rw [unitCount_dvd hw h] at hi
  have hmul : w * (stream.length / w) = stream.length := Nat.mul_div_cancel' (Nat.dvd_of_mod_eq_zero h)
  have : w * (i + 1) ≤ w * (stream.length / w) := Nat.mul_le_mul_left w hi
  rw [hmul, Nat.mul_succ] at this
  omega

theorem getD_unitAt {w : Nat} {stream : Bits} {i j : Nat} (h : j < min w (stream.length - w * i)) :
    (unitAt w stream i).getD j false = stream.getD (w * i + j) false := getD_memRead h

/-- The unit that ends the output so far is the one just appended. -/
theorem unitAt_append_self {w i : Nat} {out v : Bits} (hlen : out.length = w * i) (hv : v.length ≤ w) :
    unitAt w (out ++ v) i = v := by
  unfold unitAt memRead
  rw [List.drop_append_of_le_length (by omega), ← hlen, List.drop_length, List.nil_append]
  apply List.take_of_length_le
  simp only [List.length_append]
  omega

/-- Appending leaves the whole units before it alone. -/
theorem unitAt_append_lt {w i j : Nat} {out v : Bits} (hlen : out.length = w * i) (hj : j < i) :
    unitAt w (out ++ v) j = unitAt w out j := by
  have h : w * (j + 1) ≤ w * i := Nat.mul_le_mul_left w hj
  rw [Nat.mul_succ] at h
  unfold unitAt memRead
  have hm : min w ((out ++ v).length - w * j) = w := by simp only [List.length_append]; omega
  have hm' : min w (out.length - w * j) = w := by omega
  rw [hm, hm', List.drop_append_of_le_length (by omega), List.take_append_of_le_length]
  simp only [List.length_drop]
  omega

/-- A stream is determined by its length and its units. -/
theorem stream_ext {w : Nat} (hw : 0 < w) {a b : Bits} (hlen : a.length = b.length)
    (h : ∀ i, i < unitCount w a.length → unitAt w a i = unitAt w b i) : a = b := by
  apply bits_ext hlen
  intro p
  by_cases hp : p < a.length
  · have hq : w * (p / w) + p % w = p := Nat.div_add_mod p w
    have hm : p % w < w := Nat.mod_lt p hw
    have hi : p / w < unitCount w a.length := (lt_unitCount hw).2 (by omega)
    have ha := getD_unitAt (w := w) (stream := a) (i := p / w) (j := p % w) (by omega)
    have hb := getD_unitAt (w := w) (stream := b) (i := p / w) (j := p % w) (by omega)
    rw [hq] at ha hb
    rw [← ha, ← hb, h _ hi]
  · simp [List.getD_eq_getElem?_getD, List.getElem?_eq_none (Nat.le_of_not_lt hp),
      List.getElem?_eq_none (hlen ▸ Nat.le_of_not_lt hp)]

/-- The induction over a mode's loop: what holds before the first unit and is carried over each unit holds after the
last (R208). -/
theorem loop_induction {w : Nat} {body : Bits → State → State} {stream : Bits} {s : State} (P : Nat → State → Prop)
    (start : P 0 s)
    (carry : ∀ i t, i < unitCount w stream.length → P i t → P (i + 1) (xfIteration body t (unitAt w stream i))) :
    P (unitCount w stream.length) ((units w stream).foldl (xfIteration body) s) := by
  suffices H : ∀ n, n ≤ unitCount w stream.length →
      P n (((List.range n).map (unitAt w stream)).foldl (xfIteration body) s) from H _ (Nat.le_refl _)
  intro n
  induction n with
  | zero => intro _; simpa using start
  | succ n ih =>
    intro h
    rw [List.range_succ, List.map_append, List.foldl_append]
    exact carry n _ (by omega) (ih (by omega))

end Sys2Proof.Machine
end

