-- ==== Sys2Proof/Laws/Permutation.lean ====
section
/-! SUPPORT. What `permute` does, bit by bit, and what the fixed tables are (40_permutation_engine.md R120 to R127). -/

namespace Sys2Proof.Machine

@[simp] theorem length_tableIp : tableIp.length = 64 := by decide
@[simp] theorem length_tableFp : tableFp.length = 64 := by decide
@[simp] theorem length_tableE : tableE.length = 48 := by decide
@[simp] theorem length_tableP : tableP.length = 32 := by decide
@[simp] theorem length_tablePc1 : tablePc1.length = 56 := by decide
@[simp] theorem length_tablePc2 : tablePc2.length = 48 := by decide

/-- Output bit `j` of `permute` is the input bit the table names (R120). -/
theorem getMsbD_permute {table : List Nat} {m w : Nat} (h : table.length = m) (x : BitVec w) {j : Nat} (hj : j < m) :
    (permute table m x).getMsbD j = x.getMsbD (table.getD j 0 - 1) := by
  have hj' : j < table.length := h ▸ hj
  rw [permute, getMsbD_ofBits (by simpa using h)]
  simp [List.getD_eq_getElem?_getD, hj']

/-- `permute` on a sequence: the selected bits in the table's order (R120). -/
theorem toBits_permute {table : List Nat} {m w : Nat} (h : table.length = m) (x : BitVec w) :
    toBits (permute table m x) = table.map fun t => (toBits x).getD (t - 1) false := by
  rw [permute, toBits_ofBits (by simpa using h)]
  simp only [getD_toBits]

/-- Selecting by one table and then by another that undoes it is the identity. -/
theorem permute_permute_of_inverse {t u : List Nat} {w : Nat} (ht : t.length = w) (hu : u.length = w)
    (hinv : ∀ j < w, u.getD j 0 - 1 < w ∧ t.getD (u.getD j 0 - 1) 0 - 1 = j) (x : BitVec w) :
    permute u w (permute t w x) = x := by
  apply BitVec.eq_of_getMsbD_eq
  intro j hj
  rw [getMsbD_permute hu _ hj, getMsbD_permute ht _ (hinv j hj).1, (hinv j hj).2]

/-- FP undoes IP (R123). -/
theorem permute_fp_ip (x : Block) : permute tableFp 64 (permute tableIp 64 x) = x :=
  permute_permute_of_inverse length_tableIp length_tableFp (by decide) x

/-- IP undoes FP (R123). -/
theorem permute_ip_fp (x : Block) : permute tableIp 64 (permute tableFp 64 x) = x :=
  permute_permute_of_inverse length_tableFp length_tableIp (by decide) x

theorem permute_congr {table : List Nat} {m w : Nat} {x y : BitVec w}
    (h : ∀ t ∈ table, x.getMsbD (t - 1) = y.getMsbD (t - 1)) : permute table m x = permute table m y := by
  unfold permute
  rw [List.map_congr_left h]

theorem length_sboxOutputs (x : BitVec 48) :
    ([1, 2, 3, 4, 5, 6, 7, 8].flatMap fun j => toBits (sboxLookup j (sboxGroup x j))).length = 32 := by
  simp

/-- The S-box layer as a sequence: the eight 4-bit results in order (R131). -/
theorem toBits_sboxLayer (x : BitVec 48) :
    toBits (sboxLayer x) = [1, 2, 3, 4, 5, 6, 7, 8].flatMap fun j => toBits (sboxLookup j (sboxGroup x j)) :=
  toBits_ofBits (length_sboxOutputs x)

/-- Bit `i` of group `j` is bit `6(j-1) + i` of the layer's input (R131). -/
theorem getMsbD_sboxGroup (x : BitVec 48) {j i : Nat} (hj : 1 ≤ j) (hj' : j ≤ 8) (hi : i < 6) :
    (sboxGroup x j).getMsbD i = x.getMsbD (6 * (j - 1) + i) := by
  have h1 : 6 * (j - 1) + i < 48 := by omega
  have h2 : 48 - 6 * j + (6 - 1 - i) = 48 - 1 - (6 * (j - 1) + i) := by omega
  have h3 : 5 - i < 6 := by omega
  simp only [BitVec.getMsbD, sboxGroup, BitVec.getLsbD_extractLsb', h2]
  simp [hi, h1, h3]

end Sys2Proof.Machine
end

