-- ==== Sys2Proof/Laws/KeySchedule.lean ====
section
/-! SUPPORT. The key schedule's small lemmas (41_key_schedule.md R160 to R162). -/

namespace Sys2Proof.Machine

theorem scheduleRounds_length (shifts : List Nat) (cd : KeyHalf × KeyHalf) :
    (scheduleRounds shifts cd).1.length = shifts.length := by
  induction shifts generalizing cd with
  | nil => rfl
  | cons n ns ih => simp [scheduleRounds, ih]

/-- The schedule gives exactly sixteen subkeys (R160). -/
theorem keySchedule_length (key : Block) : (keySchedule key).1.length = 16 :=
  scheduleRounds_length _ _

/-- Rotating a half by `m` and then by `n` is rotating it by `m + n`. -/
theorem rotl_rotl {w : Nat} (x : BitVec w) (m n : Nat) : rotl (rotl x m) n = rotl x (m + n) := by
  apply BitVec.eq_of_getMsbD_eq
  intro i hi
  have hw : 0 < w := by omega
  simp only [rotl, BitVec.getMsbD_rotateLeft, hi, decide_true, Bool.true_and, Nat.mod_lt _ hw]
  congr 1
  rw [Nat.add_mod_mod, Nat.add_assoc]

/-- A full turn of a 28-bit half is the identity. -/
theorem rotl_full (x : KeyHalf) : rotl x 28 = x := by
  apply BitVec.eq_of_getMsbD_eq
  intro i hi
  simp [rotl, BitVec.getMsbD_rotateLeft, hi, Nat.mod_eq_of_lt hi]

/-- The rotations accumulate: after the given rounds each half is rotated by the sum of their shifts (R161). -/
theorem scheduleRounds_halves (shifts : List Nat) (cd : KeyHalf × KeyHalf) :
    (scheduleRounds shifts cd).2 = (if shifts = [] then cd else (rotl cd.1 shifts.sum, rotl cd.2 shifts.sum)) := by
  induction shifts generalizing cd with
  | nil => rfl
  | cons n ns ih =>
    simp only [scheduleRounds, ih, scheduleRound]
    cases ns with
    | nil => simp
    | cons m ms => simp [rotl_rotl]

/-- Subkey `i` of the rounds comes from the halves rotated by the first `i + 1` shifts (R161). -/
theorem scheduleRounds_subkey (shifts : List Nat) (cd : KeyHalf × KeyHalf) {i : Nat} (h : i < shifts.length) :
    (scheduleRounds shifts cd).1.getD i 0 =
      permute tablePc2 48 (rotl cd.1 (shifts.take (i + 1)).sum ++ rotl cd.2 (shifts.take (i + 1)).sum) := by
  induction shifts generalizing cd i with
  | nil => simp at h
  | cons n ns ih =>
    cases i with
    | zero => simp [scheduleRounds, scheduleRound]
    | succ i =>
      have := ih (scheduleRound n cd) (i := i) (by simpa using h)
      simp only [scheduleRound, rotl_rotl] at this
      simpa [scheduleRounds, scheduleRound, rotl_rotl] using this

/-- Register `i` of the file made from a list is the list's entry `i`. -/
theorem toSubkeySet_get (ks : List Subkey) (i : Fin 16) : (toSubkeySet ks)[i] = ks.getD i 0 := by
  fin_cases i <;> rfl

theorem toSubkeySet_toList {ks : List Subkey} (h : ks.length = 16) : (toSubkeySet ks).toList = ks := by
  apply List.ext_getElem (by simp [h])
  intro i h1 h2
  have hi : i < 16 := by simpa using h1
  have := toSubkeySet_get ks ⟨i, hi⟩
  simpa [h2] using this

/-- The two halves of PC-1's output, joined again. -/
theorem keyHalves_append (x : BitVec 56) : (x.extractLsb' 28 28 ++ x.extractLsb' 0 28 : BitVec 56) = x := by
  apply BitVec.eq_of_getLsbD_eq
  intro i hi
  rw [BitVec.getLsbD_append]
  by_cases h : i < 28
  · simp [h]
  · have h' : i - 28 < 28 := by omega
    have h'' : 28 + (i - 28) = i := by omega
    simp [h, h', h'']

/-- The halves after round 16 are those before round 1, the shifts adding up to a full turn (R162). -/
theorem keySchedule_halves (key : Block) : (keySchedule key).2 = scheduleStart key := by
  unfold keySchedule
  rw [scheduleRounds_halves, if_neg (by decide), show tableShifts.sum = 28 by decide, rotl_full, rotl_full]

/-- Register `i` of a key's subkey set (R161). -/
theorem subkeysOf_get (key : Block) (i : Fin 16) : (subkeysOf key)[i] =
    permute tablePc2 48 (rotl (scheduleStart key).1 (tableShifts.take (i.val + 1)).sum ++
      rotl (scheduleStart key).2 (tableShifts.take (i.val + 1)).sum) := by
  unfold subkeysOf
  rw [toSubkeySet_get]
  exact scheduleRounds_subkey tableShifts _ i.isLt

/-- The eight key bits at the positions 8, 16, ..., 64 reach no subkey (R126, R162). -/
theorem scheduleStart_congr {k k' : Block} (h : ∀ p < 64, p % 8 ≠ 7 → k.getMsbD p = k'.getMsbD p) :
    scheduleStart k = scheduleStart k' := by
  have hpos : ∀ t ∈ tablePc1, t - 1 < 64 ∧ (t - 1) % 8 ≠ 7 := by decide
  unfold scheduleStart
  rw [permute_congr fun t ht => h _ (hpos t ht).1 (hpos t ht).2]

end Sys2Proof.Machine
end

