-- ==== Sys2Proof/Laws/Feistel.lean ====
section
/-! SUPPORT. The Feistel network undoes itself (42_feistel_block.md R182 to R185). -/

namespace Sys2Proof.Machine

/-- A round with one subkey, applied to the swapped result of the same round, gives the swapped input (R185). -/
theorem feistelRound_undo (lr : Half × Half) (k : Subkey) :
    feistelRound (feistelRound lr k).swap k = lr.swap := by
  simp [feistelRound, Prod.swap]

/-- The rounds in reverse order undo the rounds, on swapped pairs (R185). -/
theorem foldl_feistelRound_undo (ks : List Subkey) (lr : Half × Half) :
    ks.reverse.foldl feistelRound (ks.foldl feistelRound lr).swap = lr.swap := by
  induction ks generalizing lr with
  | nil => rfl
  | cons k ks ih =>
    simp only [List.reverse_cons, List.foldl_append, List.foldl_cons, List.foldl_nil]
    rw [ih, feistelRound_undo]

/-- The bits of two joined halves, from the least significant. -/
theorem getLsbD_halves (x y : Half) (i : Nat) :
    BitVec.getLsbD (w := 64) (x ++ y) i = if i < 32 then y.getLsbD i else x.getLsbD (i - 32) := by
  rw [BitVec.getLsbD_append]

/-- Splitting what the join produced gives the swapped pair (R183). -/
theorem feistelSplit_join (lr : Half × Half) : feistelSplit (feistelJoin lr) = lr.swap := by
  unfold feistelSplit feistelJoin
  rw [permute_ip_fp]
  apply Prod.ext
  · apply BitVec.eq_of_getLsbD_eq
    intro i hi
    simp only [BitVec.getLsbD_extractLsb', getLsbD_halves]
    simp [hi]
  · apply BitVec.eq_of_getLsbD_eq
    intro i hi
    simp only [BitVec.getLsbD_extractLsb', getLsbD_halves]
    simp [hi]

/-- The two halves of the split, joined in order, are the permuted block (R183). -/
theorem feistelSplit_append (b : Block) : (feistelSplit b).1 ++ (feistelSplit b).2 = permute tableIp 64 b := by
  simp only [feistelSplit]
  apply BitVec.eq_of_getLsbD_eq
  intro i hi
  rw [getLsbD_halves]
  by_cases h : i < 32
  · simp [h]
  · have h' : i - 32 < 32 := by omega
    have h'' : 32 + (i - 32) = i := by omega
    simp [h, h', h'']

theorem feistelJoin_swap_split (b : Block) : feistelJoin (feistelSplit b).swap = b := by
  unfold feistelJoin
  rw [Prod.snd_swap, Prod.fst_swap, feistelSplit_append, permute_fp_ip]

/-- The pair after one more round is the round applied to the pair before it (R182, R184). -/
theorem foldl_take_succ (ks : List Subkey) (lr : Half × Half) {i : Nat} (h : i < ks.length) :
    (ks.take (i + 1)).foldl feistelRound lr =
      feistelRound ((ks.take i).foldl feistelRound lr) (ks.getD i 0) := by
  rw [List.take_add_one, List.foldl_append]
  simp [h]

end Sys2Proof.Machine
end

