-- ==== Sys2Proof/Laws/ModeDriver.lean ====
section
/-! SUPPORT. Everything the loop of an XF command can do, said once for all modes (43_mode_driver.md R205, R208): each
mode is an output function, a chaining function and the block-engine input of one unit. -/

namespace Sys2Proof.Machine

/-- The chaining value before unit `i`, for a mode that updates it by `next`. -/
def chainAt (w : Nat) (next : Block → Bits → Block) (stream : Bits) (start : Block) : Nat → Block
  | 0 => start
  | i + 1 => next (chainAt w next stream start i) (unitAt w stream i)

/-- What the loop leaves after `i` units: the output so far, the chaining value, the last call's halves, and no other
element changed. -/
structure LoopState (w : Nat) (next : Block → Bits → Block) (out : Block → Bits → Bits) (input : Block → Bits → Block)
    (dir : Direction) (s : State) (i : Nat) (t : State) : Prop where
  length : t.dout.length = min (w * i) s.din.length
  units : ∀ j < i, unitAt w t.dout j = out (chainAt w next s.din s.cs j) (unitAt w s.din j)
  chain : t.cs = chainAt w next s.din s.cs i
  idle : i = 0 → t.l = s.l ∧ t.r = s.r
  halves : 0 < i →
    (t.l, t.r) = feistelHalves s.k dir (input (chainAt w next s.din s.cs (i - 1)) (unitAt w s.din (i - 1)))
  frame : t = { s with dout := t.dout, cs := t.cs, l := t.l, r := t.r, uidx := i }

/-- The state after a mode's loop: all units done, the output as long as the input (R205, R208). -/
theorem loop_spec {w : Nat} (hw : 0 < w) {body : Bits → State → State} {next : Block → Bits → Block}
    {out : Block → Bits → Bits} {input : Block → Bits → Block} {dir : Direction} {s : State}
    (hbody : ∀ u t, t.k = s.k → body u t =
      { t with
        dout := t.dout ++ out t.cs u
        cs := next t.cs u
        l := (feistelHalves s.k dir (input t.cs u)).1
        r := (feistelHalves s.k dir (input t.cs u)).2 })
    (hout : ∀ i cs, i < unitCount w s.din.length →
      (out cs (unitAt w s.din i)).length = (unitAt w s.din i).length)
    (hdout : s.dout = []) (huidx : s.uidx = 0) :
    LoopState w next out input dir s (unitCount w s.din.length) ((units w s.din).foldl (xfIteration body) s) := by
  apply loop_induction (LoopState w next out input dir s)
  · exact ⟨by simp [hdout], by simp, rfl, fun _ => ⟨rfl, rfl⟩, by simp, by rw [← huidx]⟩
  · intro i t hi h
    have hlt : w * i < s.din.length := (lt_unitCount hw).1 hi
    have hlen : t.dout.length = w * i := by rw [h.length]; omega
    have hk : t.k = s.k := by rw [h.frame]
    have hu := length_unitAt w s.din i
    have hv := hout i t.cs hi
    have hstep := hbody (unitAt w s.din i) t hk
    refine ⟨?_, ?_, ?_, by simp, ?_, ?_⟩
    · rw [xfIteration_dout, hstep]
      simp only [List.length_append, hlen, hv, hu, Nat.mul_succ]
      omega
    · intro j hj
      rw [xfIteration_dout, hstep]
      rcases Nat.lt_succ_iff_lt_or_eq.1 hj with hj | rfl
      · rw [unitAt_append_lt hlen hj, h.units j hj]
      · rw [unitAt_append_self hlen (by omega), h.chain]
    · rw [xfIteration_cs, hstep, chainAt, h.chain]
    · intro _
      rw [xfIteration_l, xfIteration_r, hstep, h.chain, Nat.add_sub_cancel]
    · have hf := h.frame
      unfold xfIteration
      rw [hstep]
      generalize t.dout = a at *
      generalize t.cs = b at *
      rw [hf]

end Sys2Proof.Machine
end

