-- ==== Sys2Proof/Laws/Step.lean ====
section
/-! SUPPORT. What a command, a transaction, a step and a run can do. -/

namespace Sys2Proof.Machine

theorem fits_eq_withinCapacity (n : Nat) : fits n = withinCapacity n := by
  rw [fits_eq]
  unfold withinCapacity
  cases Config.maxBits <;> rfl

theorem withinCapacity_of_le {m n : Nat} (h : m ≤ n) (hn : withinCapacity n = true) : withinCapacity m = true := by
  rw [← fits_eq_withinCapacity] at *
  exact fits_of_le h hn

theorem withinCapacity_small {n : Nat} (h : n ≤ 128) : withinCapacity n = true := by
  rw [← fits_eq_withinCapacity]
  exact fits_small h

/-- A whole number of blocks fits as soon as one bit of its last block does, MAXBITS being a multiple of 64 (R8). -/
theorem withinCapacity_pad {n : Nat} (h : withinCapacity (n + 1) = true) :
    withinCapacity (n + padCount n) = true := by
  unfold withinCapacity Config.maxBits padCount at *
  cases hb : Config.extraBlocks with
  | none => simp
  | some k => simp [hb] at h ⊢; omega

/-- Everything the checks of an XF command can do (R204). -/
theorem xfChecked_cases (aligned : Bool) (run : State → State) (s : State) :
    (s.kvalid = false ∧ xfChecked aligned run s = raiseError .noSubkeys s) ∨
    (s.kvalid = true ∧ aligned = true ∧ s.din.length % 64 ≠ 0 ∧
      xfChecked aligned run s = raiseError .invalidStreamAlignment s) ∨
    (s.kvalid = true ∧ (aligned = true → s.din.length % 64 = 0) ∧ xfChecked aligned run s = run s) := by
  unfold xfChecked
  cases hk : s.kvalid with
  | false => simp
  | true => cases aligned <;> by_cases h : s.din.length % 64 = 0 <;> simp [h]

theorem xfChecked_noSubkeys {aligned : Bool} {run : State → State} {s : State} (h : s.kvalid = false) :
    xfChecked aligned run s = raiseError .noSubkeys s := by simp [xfChecked, h]

theorem xfChecked_misaligned {run : State → State} {s : State} (h : s.kvalid = true) (hn : s.din.length % 64 ≠ 0) :
    xfChecked true run s = raiseError .invalidStreamAlignment s := by simp [xfChecked, h, hn]

theorem xfChecked_run {aligned : Bool} {run : State → State} {s : State} (h : s.kvalid = true)
    (hn : aligned = true → s.din.length % 64 = 0) : xfChecked aligned run s = run s := by
  cases aligned with
  | false => simp [xfChecked, h]
  | true => simp [xfChecked, h, hn rfl]

@[simp] theorem length_keystream (x : Block) (u : Bits) : (keystream x u).length = min u.length 64 := by
  simp [keystream]

theorem length_xor_keystream (x : Block) {u : Bits} (h : u.length ≤ 64) :
    (xorBits u (keystream x u)).length = u.length := by
  simp only [length_xorBits, length_keystream]
  omega

/-- The loop of ECB (R210, R211). -/
theorem ecb_loop (dir : Direction) (s : State) (h : s.din.length % 64 = 0) :
    LoopState 64 (fun cs _ => cs) (fun _ u => toBits (blockEngine s.k dir (ofBits 64 u))) (fun _ u => ofBits 64 u) dir
      (xfBegin s) (unitCount 64 s.din.length) ((units 64 s.din).foldl (xfIteration (ecbUnit dir)) (xfBegin s)) :=
  loop_spec (s := xfBegin s) (by decide) (by intro u t ht; simp only [xfBegin_k] at *; rw [← ht]; rfl)
    (by intro i _ hi; rw [length_toBits]; exact (length_unitAt_full (by decide) h hi).symm) rfl rfl

/-- The loop of CBC, encrypt (R212). -/
theorem cbcEnc_loop (s : State) (h : s.din.length % 64 = 0) :
    LoopState 64 (fun cs u => blockEngine s.k .enc (ofBits 64 u ^^^ cs))
      (fun cs u => toBits (blockEngine s.k .enc (ofBits 64 u ^^^ cs))) (fun cs u => ofBits 64 u ^^^ cs) .enc
      (loadChain (xfBegin s)) (unitCount 64 s.din.length)
      ((units 64 s.din).foldl (xfIteration cbcEncUnit) (loadChain (xfBegin s))) :=
  loop_spec (s := loadChain (xfBegin s)) (by decide)
    (by intro u t ht; simp only [loadChain_k, xfBegin_k] at *; rw [← ht]; rfl)
    (by intro i _ hi; rw [length_toBits]; exact (length_unitAt_full (by decide) h hi).symm) rfl rfl

/-- The loop of CBC, decrypt (R213). -/
theorem cbcDec_loop (s : State) (h : s.din.length % 64 = 0) :
    LoopState 64 (fun _ u => ofBits 64 u) (fun cs u => toBits (blockEngine s.k .dec (ofBits 64 u) ^^^ cs))
      (fun _ u => ofBits 64 u) .dec (loadChain (xfBegin s)) (unitCount 64 s.din.length)
      ((units 64 s.din).foldl (xfIteration cbcDecUnit) (loadChain (xfBegin s))) :=
  loop_spec (s := loadChain (xfBegin s)) (by decide)
    (by intro u t ht; simp only [loadChain_k, xfBegin_k] at *; rw [← ht]; rfl)
    (by intro i _ hi; rw [length_toBits]; exact (length_unitAt_full (by decide) h hi).symm) rfl rfl

/-- The output of one unit in CFB, OFB and CTR, from the block whose encryption is the keystream. -/
def streamOut (k : SubkeySet) (x : Block) (u : Bits) : Bits := xorBits u (keystream (blockEngine k .enc x) u)

theorem length_streamOut_unit (k : SubkeySet) (x : Block) {w : Nat} (hw : w ≤ 64) (stream : Bits) (i : Nat) :
    (streamOut k x (unitAt w stream i)).length = (unitAt w stream i).length :=
  length_xor_keystream _ (by rw [length_unitAt]; omega)

/-- The loop of CFB, encrypt (R214). -/
theorem cfbEnc_loop (s : State) :
    LoopState 8 (fun cs u => shiftIn cs (streamOut s.k cs u)) (streamOut s.k) (fun cs _ => cs) .enc
      (loadChain (xfBegin s)) (unitCount 8 s.din.length)
      ((units 8 s.din).foldl (xfIteration cfbEncUnit) (loadChain (xfBegin s))) :=
  loop_spec (s := loadChain (xfBegin s)) (by decide)
    (by intro u t ht; simp only [loadChain_k, xfBegin_k] at *; rw [← ht]; rfl)
    (fun i _ _ => length_streamOut_unit _ _ (by decide) _ i) rfl rfl

/-- The loop of CFB, decrypt (R215). -/
theorem cfbDec_loop (s : State) :
    LoopState 8 shiftIn (streamOut s.k) (fun cs _ => cs) .enc
      (loadChain (xfBegin s)) (unitCount 8 s.din.length)
      ((units 8 s.din).foldl (xfIteration cfbDecUnit) (loadChain (xfBegin s))) :=
  loop_spec (s := loadChain (xfBegin s)) (by decide)
    (by intro u t ht; simp only [loadChain_k, xfBegin_k] at *; rw [← ht]; rfl)
    (fun i _ _ => length_streamOut_unit _ _ (by decide) _ i) rfl rfl

/-- The loop of OFB (R216, R217). -/
theorem ofb_loop (s : State) :
    LoopState 64 (fun cs _ => blockEngine s.k .enc cs) (streamOut s.k) (fun cs _ => cs) .enc
      (loadChain (xfBegin s)) (unitCount 64 s.din.length)
      ((units 64 s.din).foldl (xfIteration ofbUnit) (loadChain (xfBegin s))) :=
  loop_spec (s := loadChain (xfBegin s)) (by decide)
    (by intro u t ht; simp only [loadChain_k, xfBegin_k] at *; rw [← ht]; rfl)
    (fun i _ _ => length_streamOut_unit _ _ (by decide) _ i) rfl rfl

/-- The loop of CTR (R219, R220). -/
theorem ctr_loop (m : Nat) (s : State) :
    LoopState 64 (fun cs _ => nextCounter m cs) (streamOut s.k) (fun cs _ => cs) .enc
      (loadChain (xfBegin s)) (unitCount 64 s.din.length)
      ((units 64 s.din).foldl (xfIteration (ctrUnit m)) (loadChain (xfBegin s))) :=
  loop_spec (s := loadChain (xfBegin s)) (by decide)
    (by intro u t ht; simp only [loadChain_k, xfBegin_k] at *; rw [← ht]; rfl)
    (fun i _ _ => length_streamOut_unit _ _ (by decide) _ i) rfl rfl

/-- The output of a finished loop is as long as the input (R205). -/
theorem LoopState.length_done {w : Nat} {next : Block → Bits → Block} {out : Block → Bits → Bits}
    {input : Block → Bits → Block} {dir : Direction} {s t : State} (hw : 0 < w)
    (h : LoopState w next out input dir s (unitCount w s.din.length) t) : t.dout.length = s.din.length := by
  have hlast : ¬ w * unitCount w s.din.length < s.din.length := fun hlt =>
    Nat.lt_irrefl _ ((lt_unitCount hw).2 hlt)
  rw [h.length]
  omega

theorem step_of_pending {s : State} {e : HostEvent} {rest : List HostEvent} (h : s.pending = e :: rest) :
    step s = transact e { s with pending := rest } := by
  simp [step, serveNext, h]

theorem run_of_step {n : Nat} {s t : State} (h : step s = .next t) : core.run (n + 1) s = core.run n t := by
  have h' : core.step s = .next t := h
  simp only [Host.Core.run, h']

/-- A run goes on through the issue of a command's word. -/
theorem run_issue {n : Nat} {s t : State} {c : Byte} {i : Instr} {rest : List HostEvent}
    (hp : s.pending = .issue c :: rest) (hd : decodeWord c = .command i)
    (he : exec i { s with pending := rest } = .next t) : core.run (n + 1) s = core.run n t := by
  apply run_of_step
  rw [step_of_pending hp, transact, hostIssue, hd]
  exact he

/-- A run goes on through a load that fits. -/
theorem run_load {n : Nat} {s : State} {v : Bits} {rest : List HostEvent} (hp : s.pending = .load v :: rest)
    (hv : withinCapacity v.length = true) :
    core.run (n + 1) s = core.run n { s with pending := rest, din := v } := by
  apply run_of_step
  rw [step_of_pending hp, transact, hostLoad, fits_eq_withinCapacity, hv, if_pos rfl]
  rfl

end Sys2Proof.Machine
end

