-- ==== Sys2Proof/Laws/Exec.lean ====
section
/-! SUPPORT. What each XF command answers when its checks pass, and, once for all commands, everything `exec` can do:
it succeeds and writes only what the opcode map names, or it takes the failure entry with one of its own codes. -/

namespace Sys2Proof.Machine

/-! What each XF command answers when its checks pass (R204, R208). -/

theorem exec_xfEcbEnc {s : State} (h : s.kvalid = true) (hn : s.din.length % 64 = 0) :
    exec .xfEcbEnc s = .next (succeed ((units 64 s.din).foldl (xfIteration (ecbUnit .enc)) (xfBegin s))) :=
  congrArg Host.Outcome.next (xfChecked_run h (fun _ => hn))

theorem exec_xfEcbDec {s : State} (h : s.kvalid = true) (hn : s.din.length % 64 = 0) :
    exec .xfEcbDec s = .next (succeed ((units 64 s.din).foldl (xfIteration (ecbUnit .dec)) (xfBegin s))) :=
  congrArg Host.Outcome.next (xfChecked_run h (fun _ => hn))

theorem exec_xfCbcEnc {s : State} (h : s.kvalid = true) (hn : s.din.length % 64 = 0) :
    exec .xfCbcEnc s = .next (succeed ((units 64 s.din).foldl (xfIteration cbcEncUnit) (loadChain (xfBegin s)))) :=
  congrArg Host.Outcome.next (xfChecked_run h (fun _ => hn))

theorem exec_xfCbcDec {s : State} (h : s.kvalid = true) (hn : s.din.length % 64 = 0) :
    exec .xfCbcDec s = .next (succeed ((units 64 s.din).foldl (xfIteration cbcDecUnit) (loadChain (xfBegin s)))) :=
  congrArg Host.Outcome.next (xfChecked_run h (fun _ => hn))

theorem exec_xfCfbEnc {s : State} (h : s.kvalid = true) :
    exec .xfCfbEnc s = .next (succeed ((units 8 s.din).foldl (xfIteration cfbEncUnit) (loadChain (xfBegin s)))) :=
  congrArg Host.Outcome.next (xfChecked_run h (by simp))

theorem exec_xfCfbDec {s : State} (h : s.kvalid = true) :
    exec .xfCfbDec s = .next (succeed ((units 8 s.din).foldl (xfIteration cfbDecUnit) (loadChain (xfBegin s)))) :=
  congrArg Host.Outcome.next (xfChecked_run h (by simp))

theorem exec_xfOfbEnc {s : State} (h : s.kvalid = true) :
    exec .xfOfbEnc s = .next (succeed ((units 64 s.din).foldl (xfIteration ofbUnit) (loadChain (xfBegin s)))) :=
  congrArg Host.Outcome.next (xfChecked_run h (by simp))

theorem exec_xfOfbDec {s : State} (h : s.kvalid = true) :
    exec .xfOfbDec s = .next (succeed ((units 64 s.din).foldl (xfIteration ofbUnit) (loadChain (xfBegin s)))) :=
  congrArg Host.Outcome.next (xfChecked_run h (by simp))

theorem exec_xfCtrEnc {s : State} (h : s.kvalid = true) :
    exec .xfCtrEnc s = .next (succeed ((units 64 s.din).foldl (xfIteration (ctrUnit Config.ctrMod)) (loadChain (xfBegin s)))) :=
  congrArg Host.Outcome.next (xfChecked_run h (by simp))

theorem exec_xfCtrDec {s : State} (h : s.kvalid = true) :
    exec .xfCtrDec s = .next (succeed ((units 64 s.din).foldl (xfIteration (ctrUnit Config.ctrMod)) (loadChain (xfBegin s)))) :=
  congrArg Host.Outcome.next (xfChecked_run h (by simp))

/-- KEYGEN on a 64-bit operand (R163). -/
theorem exec_keygen {s : State} (h : s.din.length = 64) :
    exec .keygen s = .next { s with
      k := subkeysOf (ofBits 64 s.din), kvalid := true, c := (scheduleStart (ofBits 64 s.din)).1,
      d := (scheduleStart (ofBits 64 s.din)).2, err := 0 } := by
  rw [← keySchedule_halves]
  exact congrArg Host.Outcome.next (withOperand_run h)

theorem chainAt_const (w : Nat) (stream : Bits) (start : Block) (i : Nat) :
    chainAt w (fun cs _ => cs) stream start i = start := by
  induction i with
  | zero => rfl
  | succ i ih => rw [chainAt, ih]

/-- After the loop of a chained mode, only DOUT, CS, L, R, UIDX and ERR may differ. -/
theorem succeed_loop_chained {w : Nat} {next : Block → Bits → Block} {out : Block → Bits → Bits}
    {input : Block → Bits → Block} {dir : Direction} {s t : State} {n : Nat}
    (h : LoopState w next out input dir (loadChain (xfBegin s)) n t) :
    succeed t = { s with dout := t.dout, cs := t.cs, l := t.l, r := t.r, uidx := n, err := 0 } := by
  have hf := h.frame
  generalize t.dout = a at *
  generalize t.cs = b at *
  generalize t.l = x at *
  generalize t.r = y at *
  rw [hf]
  rfl

/-- After the loop of ECB, only DOUT, L, R, UIDX and ERR may differ. -/
theorem succeed_loop_ecb {w : Nat} {out : Block → Bits → Bits} {input : Block → Bits → Block} {dir : Direction}
    {s t : State} {n : Nat} (h : LoopState w (fun cs _ => cs) out input dir (xfBegin s) n t) :
    succeed t = { s with dout := t.dout, l := t.l, r := t.r, uidx := n, err := 0 } := by
  have hf := h.frame
  have hc := h.chain
  rw [chainAt_const] at hc
  rw [hc] at hf
  generalize t.dout = a at *
  generalize t.l = x at *
  generalize t.r = y at *
  rw [hf]
  rfl

theorem LoopState.uidx_eq {w : Nat} {next : Block → Bits → Block} {out : Block → Bits → Bits}
    {input : Block → Bits → Block} {dir : Direction} {s t : State} {n : Nat}
    (h : LoopState w next out input dir s n t) : t.uidx = n := by rw [h.frame]

/-- The frame of a chained mode in terms of the state it leaves (R97). -/
theorem writes_chained {w : Nat} {next : Block → Bits → Block} {out : Block → Bits → Bits}
    {input : Block → Bits → Block} {dir : Direction} {s t : State} {n : Nat}
    (h : LoopState w next out input dir (loadChain (xfBegin s)) n t) :
    succeed t = { s with dout := t.dout, cs := t.cs, l := t.l, r := t.r, uidx := t.uidx, err := 0 } := by
  rw [h.uidx_eq]
  exact succeed_loop_chained h

/-- The frame of ECB in terms of the state it leaves (R97). -/
theorem writes_ecb {w : Nat} {out : Block → Bits → Bits} {input : Block → Bits → Block} {dir : Direction}
    {s t : State} {n : Nat} (h : LoopState w (fun cs _ => cs) out input dir (xfBegin s) n t) :
    succeed t = { s with dout := t.dout, l := t.l, r := t.r, uidx := t.uidx, err := 0 } := by
  rw [h.uidx_eq]
  exact succeed_loop_ecb h

theorem blockAt_eq (b : Bits) (i : Nat) : blockAt b i = ofBits 64 (unitAt 64 b i) := by
  rw [unitAt_eq]
  rfl

/-- What a command may answer: success with only its own writes, or the failure entry with one of its own codes. -/
def Answers (i : Instr) (s t : State) : Prop :=
  (t.err = 0 ∧ WritesOnly i s t) ∨ ∃ kind, errorCode kind ∈ raisable i ∧ t = raiseError kind s

theorem answers_operand {i : Instr} {s : State} {w : Nat} {kind : ErrorKind} {run : BitVec w → State → State}
    (hk : errorCode kind ∈ raisable i) (hr : (run (ofBits w s.din) s).err = 0 ∧ WritesOnly i s (run (ofBits w s.din) s)) :
    Answers i s (withOperand w kind run s) := by
  rcases withOperand_cases w kind run s with ⟨_, h⟩ | ⟨_, h⟩ <;> rw [h]
  · exact .inl hr
  · exact .inr ⟨kind, hk, rfl⟩

theorem answers_checked {i : Instr} {s : State} {aligned : Bool} {run : State → State}
    (h5 : errorCode .noSubkeys ∈ raisable i)
    (h3 : aligned = true → errorCode .invalidStreamAlignment ∈ raisable i)
    (hr : (aligned = true → s.din.length % 64 = 0) → (run s).err = 0 ∧ WritesOnly i s (run s)) :
    Answers i s (xfChecked aligned run s) := by
  rcases xfChecked_cases aligned run s with ⟨_, h⟩ | ⟨_, ha, _, h⟩ | ⟨_, ha, h⟩ <;> rw [h]
  · exact .inr ⟨_, h5, rfl⟩
  · exact .inr ⟨_, h3 ha, rfl⟩
  · exact .inl (hr ha)

/-- Everything `exec` can do (R256, R271, R296, R97). -/
theorem exec_answers (i : Instr) (s : State) : ∃ t, exec i s = .next t ∧ Answers i s t := by
  cases i with
  | permIp => exact ⟨_, rfl, answers_operand (by decide) ⟨rfl, rfl⟩⟩
  | permFp => exact ⟨_, rfl, answers_operand (by decide) ⟨rfl, rfl⟩⟩
  | permE => exact ⟨_, rfl, answers_operand (by decide) ⟨rfl, rfl⟩⟩
  | permP => exact ⟨_, rfl, answers_operand (by decide) ⟨rfl, rfl⟩⟩
  | permPc1 => exact ⟨_, rfl, answers_operand (by decide) ⟨rfl, rfl⟩⟩
  | permPc2 => exact ⟨_, rfl, answers_operand (by decide) ⟨rfl, rfl⟩⟩
  | sbox => exact ⟨_, rfl, answers_operand (by decide) ⟨rfl, rfl⟩⟩
  | keygen => exact ⟨_, rfl, answers_operand (by decide) ⟨rfl, rfl⟩⟩
  | keyclr => exact ⟨_, rfl, .inl ⟨rfl, rfl⟩⟩
  | blkEnc =>
    refine ⟨_, rfl, ?_⟩
    unfold blockCommand
    split
    · exact answers_operand (by decide) ⟨rfl, rfl⟩
    · exact .inr ⟨.noSubkeys, by decide, rfl⟩
  | blkDec =>
    refine ⟨_, rfl, ?_⟩
    unfold blockCommand
    split
    · exact answers_operand (by decide) ⟨rfl, rfl⟩
    · exact .inr ⟨.noSubkeys, by decide, rfl⟩
  | xfEcbEnc => exact ⟨_, rfl, answers_checked (by decide) (by decide) fun h =>
      ⟨rfl, writes_ecb (ecb_loop .enc s (h rfl))⟩⟩
  | xfEcbDec => exact ⟨_, rfl, answers_checked (by decide) (by decide) fun h =>
      ⟨rfl, writes_ecb (ecb_loop .dec s (h rfl))⟩⟩
  | xfCbcEnc => exact ⟨_, rfl, answers_checked (by decide) (by decide) fun h =>
      ⟨rfl, writes_chained (cbcEnc_loop s (h rfl))⟩⟩
  | xfCbcDec => exact ⟨_, rfl, answers_checked (by decide) (by decide) fun h =>
      ⟨rfl, writes_chained (cbcDec_loop s (h rfl))⟩⟩
  | xfCfbEnc => exact ⟨_, rfl, answers_checked (by decide) (by decide) fun _ =>
      ⟨rfl, writes_chained (cfbEnc_loop s)⟩⟩
  | xfCfbDec => exact ⟨_, rfl, answers_checked (by decide) (by decide) fun _ =>
      ⟨rfl, writes_chained (cfbDec_loop s)⟩⟩
  | xfOfbEnc => exact ⟨_, rfl, answers_checked (by decide) (by decide) fun _ =>
      ⟨rfl, writes_chained (ofb_loop s)⟩⟩
  | xfOfbDec => exact ⟨_, rfl, answers_checked (by decide) (by decide) fun _ =>
      ⟨rfl, writes_chained (ofb_loop s)⟩⟩
  | xfCtrEnc => exact ⟨_, rfl, answers_checked (by decide) (by decide) fun _ =>
      ⟨rfl, writes_chained (ctr_loop _ s)⟩⟩
  | xfCtrDec => exact ⟨_, rfl, answers_checked (by decide) (by decide) fun _ =>
      ⟨rfl, writes_chained (ctr_loop _ s)⟩⟩
  | pad =>
    by_cases h : fits (s.din.length + padCount s.din.length)
    · exact ⟨_, if_pos h, .inl ⟨rfl, rfl⟩⟩
    · exact ⟨_, if_neg h, .inr ⟨.invalidOperandLength, by decide, rfl⟩⟩
  | unpad =>
    by_cases h : s.padlen.toNat ≤ s.din.length
    · exact ⟨_, if_pos h, .inl ⟨rfl, rfl⟩⟩
    · exact ⟨_, if_neg h, .inr ⟨.invalidPadLength, by decide, rfl⟩⟩
  | mov => exact ⟨_, rfl, .inl ⟨rfl, rfl⟩⟩

end Sys2Proof.Machine
end

