-- ==== Sys2Proof/Laws/Memory.lean ====
section
/-! SUPPORT. The capacity condition on the buffers: every operation that writes one keeps it (20_memory.md R73). -/

namespace Sys2Proof.Machine

theorem Memory.wf_iff (s : State) : Memory.wf s = true ↔ fits s.din.length = true ∧ fits s.dout.length = true := by
  simp [Memory.wf]

theorem wf_reset : Memory.wf State.reset = true := by decide

/-- The failure entry empties DOUT and leaves DIN (R256). -/
theorem wf_raiseError {s : State} (kind : ErrorKind) (h : Memory.wf s = true) : Memory.wf (raiseError kind s) = true := by
  rw [Memory.wf_iff] at *
  exact ⟨h.1, fits_small (Nat.zero_le _)⟩

/-- A result that fits may replace DOUT (R72, R73). -/
theorem wf_of_dout {s t : State} (h : Memory.wf s = true) (hd : t.din = s.din) (hv : fits t.dout.length = true) :
    Memory.wf t = true := by
  rw [Memory.wf_iff] at *
  exact ⟨hd ▸ h.1, hv⟩

theorem wf_succeedWith {s : State} {v : Bits} (h : Memory.wf s = true) (hv : fits v.length = true) :
    Memory.wf (succeedWith v s) = true := wf_of_dout h rfl hv

/-- A load that fits replaces DIN (R35). -/
theorem wf_loadDin {s : State} {v : Bits} (h : Memory.wf s = true) (hv : fits v.length = true) :
    Memory.wf (loadDin v s) = true := by
  rw [Memory.wf_iff] at *
  exact ⟨hv, h.2⟩

/-- An append to DOUT that fits (R14). -/
theorem wf_memWrite {s : State} {v : Bits} (h : Memory.wf s = true) (hv : fits (s.dout.length + v.length) = true) :
    Memory.wf (memWrite v s) = true := wf_of_dout h rfl (by simpa using hv)

theorem wf_withOperand {w : Nat} {kind : ErrorKind} {run : BitVec w → State → State} {s : State}
    (h : Memory.wf s = true) (hr : Memory.wf (run (ofBits w s.din) s) = true) :
    Memory.wf (withOperand w kind run s) = true := by
  rcases withOperand_cases w kind run s with ⟨_, e⟩ | ⟨_, e⟩ <;> rw [e]
  · exact hr
  · exact wf_raiseError kind h

theorem wf_xfChecked {aligned : Bool} {run : State → State} {s : State} (h : Memory.wf s = true)
    (hr : (aligned = true → s.din.length % 64 = 0) → Memory.wf (run s) = true) :
    Memory.wf (xfChecked aligned run s) = true := by
  rcases xfChecked_cases aligned run s with ⟨_, e⟩ | ⟨_, _, _, e⟩ | ⟨_, ha, e⟩ <;> rw [e]
  · exact wf_raiseError _ h
  · exact wf_raiseError _ h
  · exact hr ha

/-- The loop of an XF command leaves an output as long as its input, so it fits (R205). -/
theorem wf_loop {w : Nat} {next : Block → Bits → Block} {out : Block → Bits → Bits} {input : Block → Bits → Block}
    {dir : Direction} {s u t : State} (hw : 0 < w) (h : Memory.wf s = true) (hd : u.din = s.din)
    (hl : LoopState w next out input dir u (unitCount w s.din.length) t) : Memory.wf (succeed t) = true := by
  have hlen := LoopState.length_done hw (hd ▸ hl)
  have hin : t.din = u.din := by rw [hl.frame]
  refine wf_of_dout h (hin.trans hd) ?_
  rw [succeed_dout, hlen, hd]
  exact ((Memory.wf_iff s).1 h).1

theorem wf_blockCommand {dir : Direction} {s : State} (h : Memory.wf s = true) :
    Memory.wf (blockCommand dir s) = true := by
  unfold blockCommand
  split
  · exact wf_withOperand h (wf_of_dout h rfl (fits_small (by simp)))
  · exact wf_raiseError _ h

/-- Every command keeps the capacity condition (R73). -/
theorem exec_keeps_wf {i : Instr} {s t : State} (he : exec i s = .next t) (h : Memory.wf s = true) :
    Memory.wf t = true := by
  have hin := ((Memory.wf_iff s).1 h).1
  have hout := ((Memory.wf_iff s).1 h).2
  cases i with
  | permIp => cases he; exact wf_withOperand h (wf_succeedWith h (fits_small (by simp)))
  | permFp => cases he; exact wf_withOperand h (wf_succeedWith h (fits_small (by simp)))
  | permE => cases he; exact wf_withOperand h (wf_succeedWith h (fits_small (by simp)))
  | permP => cases he; exact wf_withOperand h (wf_succeedWith h (fits_small (by simp)))
  | permPc1 => cases he; exact wf_withOperand h (wf_succeedWith h (fits_small (by simp)))
  | permPc2 => cases he; exact wf_withOperand h (wf_succeedWith h (fits_small (by simp)))
  | sbox => cases he; exact wf_withOperand h (wf_succeedWith h (fits_small (by simp)))
  | keygen => cases he; exact wf_withOperand h (wf_of_dout h rfl hout)
  | keyclr => cases he; exact wf_of_dout h rfl hout
  | blkEnc => cases he; exact wf_blockCommand h
  | blkDec => cases he; exact wf_blockCommand h
  | xfEcbEnc =>
    cases he
    exact wf_xfChecked h fun ha => wf_loop (w := 64) (u := xfBegin s) (by decide) h rfl (ecb_loop .enc s (ha rfl))
  | xfEcbDec =>
    cases he
    exact wf_xfChecked h fun ha => wf_loop (w := 64) (u := xfBegin s) (by decide) h rfl (ecb_loop .dec s (ha rfl))
  | xfCbcEnc =>
    cases he
    exact wf_xfChecked h fun ha => wf_loop (w := 64) (u := loadChain (xfBegin s)) (by decide) h rfl (cbcEnc_loop s (ha rfl))
  | xfCbcDec =>
    cases he
    exact wf_xfChecked h fun ha => wf_loop (w := 64) (u := loadChain (xfBegin s)) (by decide) h rfl (cbcDec_loop s (ha rfl))
  | xfCfbEnc =>
    cases he
    exact wf_xfChecked h fun _ => wf_loop (w := 8) (u := loadChain (xfBegin s)) (by decide) h rfl (cfbEnc_loop s)
  | xfCfbDec =>
    cases he
    exact wf_xfChecked h fun _ => wf_loop (w := 8) (u := loadChain (xfBegin s)) (by decide) h rfl (cfbDec_loop s)
  | xfOfbEnc =>
    cases he
    exact wf_xfChecked h fun _ => wf_loop (w := 64) (u := loadChain (xfBegin s)) (by decide) h rfl (ofb_loop s)
  | xfOfbDec =>
    cases he
    exact wf_xfChecked h fun _ => wf_loop (w := 64) (u := loadChain (xfBegin s)) (by decide) h rfl (ofb_loop s)
  | xfCtrEnc =>
    cases he
    exact wf_xfChecked h fun _ => wf_loop (w := 64) (u := loadChain (xfBegin s)) (by decide) h rfl (ctr_loop _ s)
  | xfCtrDec =>
    cases he
    exact wf_xfChecked h fun _ => wf_loop (w := 64) (u := loadChain (xfBegin s)) (by decide) h rfl (ctr_loop _ s)
  | pad =>
    by_cases hf : fits (s.din.length + padCount s.din.length)
    · rw [exec, execPad, if_pos hf] at he
      cases he
      refine wf_of_dout h rfl ?_
      simpa [memRead] using hf
    · rw [exec, execPad, if_neg hf] at he
      cases he
      exact wf_raiseError _ h
  | unpad =>
    by_cases hp : s.padlen.toNat ≤ s.din.length
    · rw [exec, execUnpad, if_pos hp] at he
      cases he
      exact wf_succeedWith h (fits_of_le (by simp [memRead]) hin)
    · rw [exec, execUnpad, if_neg hp] at he
      cases he
      exact wf_raiseError _ h
  | mov =>
    cases he
    rw [Memory.wf_iff]
    exact ⟨hout, hout⟩

end Sys2Proof.Machine
end

