-- ==== Sys2Proof/Laws/PerInstr.lean ====
section
/-! SUPPORT. One lemma per command: it is well formed, its mnemonic names it (and assembles to its word), and its word,
as the opcode table gives it, is read back as it (30_encoding.md R97, R99, R100). -/

namespace Sys2Proof.Laws.Spelling

def Statement (i : Instr) : Prop :=
  i.wf = true ∧ Instr.ofMnemonic i.mnemonic = some i ∧ assemble i.mnemonic = some (encode i) ∧
    decodeTableWord 8 (encode i).toNat = some i

theorem permIp : Statement .permIp := by unfold Statement; decide +kernel
theorem permFp : Statement .permFp := by unfold Statement; decide +kernel
theorem permE : Statement .permE := by unfold Statement; decide +kernel
theorem permP : Statement .permP := by unfold Statement; decide +kernel
theorem permPc1 : Statement .permPc1 := by unfold Statement; decide +kernel
theorem permPc2 : Statement .permPc2 := by unfold Statement; decide +kernel
theorem sbox : Statement .sbox := by unfold Statement; decide +kernel
theorem keygen : Statement .keygen := by unfold Statement; decide +kernel
theorem keyclr : Statement .keyclr := by unfold Statement; decide +kernel
theorem blkEnc : Statement .blkEnc := by unfold Statement; decide +kernel
theorem blkDec : Statement .blkDec := by unfold Statement; decide +kernel
theorem xfEcbEnc : Statement .xfEcbEnc := by unfold Statement; decide +kernel
theorem xfCbcEnc : Statement .xfCbcEnc := by unfold Statement; decide +kernel
theorem xfCfbEnc : Statement .xfCfbEnc := by unfold Statement; decide +kernel
theorem xfOfbEnc : Statement .xfOfbEnc := by unfold Statement; decide +kernel
theorem xfCtrEnc : Statement .xfCtrEnc := by unfold Statement; decide +kernel
theorem xfEcbDec : Statement .xfEcbDec := by unfold Statement; decide +kernel
theorem xfCbcDec : Statement .xfCbcDec := by unfold Statement; decide +kernel
theorem xfCfbDec : Statement .xfCfbDec := by unfold Statement; decide +kernel
theorem xfOfbDec : Statement .xfOfbDec := by unfold Statement; decide +kernel
theorem xfCtrDec : Statement .xfCtrDec := by unfold Statement; decide +kernel
theorem pad : Statement .pad := by unfold Statement; decide +kernel
theorem unpad : Statement .unpad := by unfold Statement; decide +kernel
theorem mov : Statement .mov := by unfold Statement; decide +kernel

end Sys2Proof.Laws.Spelling
end

