-- ==== Sys2Proof/Laws/Streams.lean ====
section
/-! SUPPORT. What the chaining values and outputs of two or more finished loops have to do with each other, said once
for all modes: one loop undoing another, a stream cut in two, the closed forms of the CTR counter and the CFB register
(43_mode_driver.md R214 to R221; 94_global_properties.md R289, R290). -/

namespace Sys2Proof.Machine

/-- The counter before unit `j` is the starting value plus `j`, modulo 2^64 (R219). -/
theorem chainAt_counter (stream : Bits) (iv : Block) (j : Nat) :
    chainAt 64 (fun cs _ => nextCounter Config.ctrMod cs) stream iv j =
      BitVec.ofNat 64 ((iv.toNat + j) % 2 ^ 64) := by
  induction j with
  | zero =>
    apply BitVec.eq_of_toNat_eq
    have := iv.isLt
    simp [chainAt]
    omega
  | succ j ih =>
    rw [chainAt, ih, nextCounter]
    apply BitVec.eq_of_toNat_eq
    simp [Config.ctrMod]
    omega

/-- The CFB register update as a sequence (R214, R218). -/
theorem toBits_shiftIn (cs : Block) (seg : Bits) (h : seg.length ≤ 8) :
    toBits (shiftIn cs seg) = (toBits cs).drop 8 ++ seg ++ List.replicate (8 - seg.length) false := by
  rw [shiftIn, toBits_ofBits]
  · rfl
  · simp
    omega

/-- The CFB register after `i` whole segments: the last 64 bits of IVREG followed by those segments (R214). -/
theorem toBits_register (c : Bits) (iv : Block) (i : Nat) (h : 8 * i ≤ c.length) :
    toBits (chainAt 8 shiftIn c iv i) = (toBits iv ++ c.take (8 * i)).drop (8 * i) := by
  induction i with
  | zero => simp [chainAt]
  | succ i ih =>
    have hu : (unitAt 8 c i).length = 8 := by rw [length_unitAt]; omega
    have htake : c.take (8 * (i + 1)) = c.take (8 * i) ++ unitAt 8 c i := by
      rw [unitAt_eq, Nat.mul_add, List.take_add]
    rw [chainAt, toBits_shiftIn _ _ (by omega), ih (by omega), hu, htake, ← List.append_assoc, List.drop_drop,
      show 8 * i + 8 = 8 * (i + 1) by omega]
    rw [List.drop_append_of_le_length (l₂ := unitAt 8 c i)]
    · simp
    · simp
      omega

/-- From the eighth segment on, nothing of IVREG is left in the CFB register (R290). -/
theorem toBits_register_late (c : Bits) (iv : Block) (i : Nat) (h8 : 8 ≤ i) (h : 8 * i ≤ c.length) :
    toBits (chainAt 8 shiftIn c iv i) = (c.take (8 * i)).drop (8 * i - 64) := by
  rw [toBits_register c iv i h, List.drop_append]
  simp
  omega

/-- The register of CFB encryption is that of decryption on the ciphertext it produces (R214, R215). -/
theorem chainAt_cfb_enc {stream output : Bits} {iv : Block} {k : SubkeySet}
    (h : ∀ j < unitCount 8 stream.length, unitAt 8 output j =
      streamOut k (chainAt 8 (fun cs u => shiftIn cs (streamOut k cs u)) stream iv j) (unitAt 8 stream j)) :
    ∀ i ≤ unitCount 8 stream.length,
      chainAt 8 (fun cs u => shiftIn cs (streamOut k cs u)) stream iv i = chainAt 8 shiftIn output iv i := by
  intro i
  induction i with
  | zero => intro _; rfl
  | succ i ih => intro hi; rw [chainAt, chainAt, ← ih (by omega), h i (by omega)]

/-- XOR with the keystream of one block twice gives the unit back (R221). -/
theorem streamOut_streamOut (k : SubkeySet) (x : Block) {u : Bits} (h : u.length ≤ 64) :
    streamOut k x (streamOut k x u) = u := by
  have hlen : (streamOut k x u).length = u.length := length_xor_keystream _ h
  have hkey : keystream (blockEngine k .enc x) (streamOut k x u) = keystream (blockEngine k .enc x) u := by
    unfold keystream
    rw [hlen]
  show xorBits (streamOut k x u) (keystream _ (streamOut k x u)) = u
  rw [hkey]
  exact xorBits_cancel (by simp; omega)

section
variable {w : Nat} {next next' : Block → Bits → Block} {out out' : Block → Bits → Bits}
  {i₁ i₂ i₃ : Block → Bits → Block} {dir dir' : Direction}

/-- One mode's loop undoes another's, when it does so unit by unit and carries the same chaining value (R221). -/
theorem loop_round_trip (hw : 0 < w) {sE tE sD tD : State}
    (hE : LoopState w next out i₁ dir sE (unitCount w sE.din.length) tE)
    (hD : LoopState w next' out' i₂ dir' sD (unitCount w sD.din.length) tD)
    (hdin : sD.din = tE.dout) (hcs : sD.cs = sE.cs)
    (hu : ∀ i < unitCount w sE.din.length, ∀ cs,
      next' cs (out cs (unitAt w sE.din i)) = next cs (unitAt w sE.din i) ∧
      out' cs (out cs (unitAt w sE.din i)) = unitAt w sE.din i) :
    tD.dout = sE.din := by
  have hEl := hE.length_done hw
  have hDl := hD.length_done hw
  have hc : ∀ i ≤ unitCount w sE.din.length, chainAt w next' sD.din sD.cs i = chainAt w next sE.din sE.cs i := by
    intro i
    induction i with
    | zero => intro _; exact hcs
    | succ i ih =>
      intro hi
      rw [chainAt, chainAt, ih (by omega), hdin, hE.units i (by omega)]
      exact (hu i (by omega) _).1
  apply stream_ext hw (by rw [hDl, hdin, hEl])
  intro i hi
  rw [hDl, hdin, hEl] at hi
  rw [hD.units i (by rw [hdin, hEl]; exact hi), hc i (by omega), hdin, hE.units i hi]
  exact (hu i hi _).2

/-- Two loops of one mode on one stream, from one chaining value (or for a mode whose output ignores it), have one
output. -/
theorem loop_dout_congr (hw : 0 < w) {s s' t t' : State}
    (h : LoopState w next out i₁ dir s (unitCount w s.din.length) t)
    (h' : LoopState w next out i₂ dir' s' (unitCount w s'.din.length) t')
    (hdin : s'.din = s.din) (hcs : s'.cs = s.cs ∨ ∀ c c' u, out c u = out c' u) : t.dout = t'.dout := by
  apply stream_ext hw (by rw [h.length_done hw, h'.length_done hw, hdin])
  intro i hi
  rw [h.length_done hw] at hi
  rw [h.units i hi, h'.units i (by rw [hdin]; exact hi), hdin]
  rcases hcs with hcs | hcs
  · rw [hcs]
  · exact hcs _ _ _

theorem unitAt_append_right {X Y : Bits} {m j : Nat} (h : X.length = w * m) :
    unitAt w (X ++ Y) (m + j) = unitAt w Y j := by
  rw [unitAt_eq, unitAt_eq, Nat.mul_add, ← h, List.drop_append, Nat.add_sub_cancel_left,
    List.drop_eq_nil_of_le (by omega)]
  rfl

/-- A stream cut at a unit boundary: the two parts' outputs joined are the whole stream's, when the second part starts
from the chaining value the first one ends with (or for a mode whose output ignores it) (R289). -/
theorem loop_split (hw : 0 < w) {sT sU sV tT tU tV : State} {X Y : Bits} {m : Nat} (hX : X.length = w * m)
    (hT : LoopState w next out i₁ dir sT (unitCount w (X ++ Y).length) tT)
    (hU : LoopState w next out i₂ dir sU (unitCount w X.length) tU)
    (hV : LoopState w next out i₃ dir sV (unitCount w Y.length) tV)
    (dT : sT.din = X ++ Y) (dU : sU.din = X) (dV : sV.din = Y) (hcs : sU.cs = sT.cs)
    (hmid : sV.cs = chainAt w next X sT.cs m ∨ ∀ c c' u, out c u = out c' u) :
    tT.dout = tU.dout ++ tV.dout := by
  have lT : tT.dout.length = (X ++ Y).length := by rw [← dT] at hT; rw [hT.length_done hw, dT]
  have lU : tU.dout.length = X.length := by rw [← dU] at hU; rw [hU.length_done hw, dU]
  have lV : tV.dout.length = Y.length := by rw [← dV] at hV; rw [hV.length_done hw, dV]
  have hc : ∀ j ≤ m, chainAt w next (X ++ Y) sT.cs j = chainAt w next X sT.cs j := by
    intro j
    induction j with
    | zero => intro _; rfl
    | succ j ih => intro hj; rw [chainAt, chainAt, ih (by omega), unitAt_append_lt hX (by omega)]
  have hd : ∀ j, chainAt w next (X ++ Y) sT.cs (m + j) = chainAt w next Y (chainAt w next X sT.cs m) j := by
    intro j
    induction j with
    | zero => exact hc m (Nat.le_refl _)
    | succ j ih => rw [← Nat.add_assoc, chainAt, chainAt, ih, unitAt_append_right hX]
  have hcount : unitCount w X.length = m := by rw [hX, unitCount_mul _ _ hw]
  apply stream_ext hw (by simp [lT, lU, lV])
  intro i hi
  rw [lT] at hi
  rw [hT.units i hi, dT]
  by_cases him : i < m
  · rw [unitAt_append_lt (out := tU.dout) (by rw [lU, hX]) him, hU.units i (by omega), dU,
      unitAt_append_lt (out := X) hX him, hc i (by omega), hcs]
  · obtain ⟨j, rfl⟩ := Nat.exists_eq_add_of_le (Nat.le_of_not_lt him)
    have hj : j < unitCount w Y.length := by
      rw [lt_unitCount hw] at hi ⊢
      rw [List.length_append, hX, Nat.mul_add] at hi
      omega
    rw [unitAt_append_right (X := tU.dout) (by rw [lU, hX]), hV.units j hj, dV, unitAt_append_right (X := X) hX, hd]
    rcases hmid with h | h
    · rw [h]
    · exact h _ _ _

/-- Two streams whose units agree from unit `m` on agree from bit `w * m` on. -/
theorem drop_ext (hw : 0 < w) {a b : Bits} {m : Nat} (hlen : a.length = b.length)
    (h : ∀ i, m ≤ i → i < unitCount w a.length → unitAt w a i = unitAt w b i) :
    a.drop (w * m) = b.drop (w * m) := by
  apply stream_ext hw (by simp [hlen])
  intro i hi
  rw [unitAt_eq, unitAt_eq, List.drop_drop, List.drop_drop, ← Nat.mul_add, ← unitAt_eq, ← unitAt_eq]
  apply h _ (by omega)
  rw [lt_unitCount hw] at hi ⊢
  rw [Nat.mul_add]
  simp at hi
  omega

end

/-- What a loop does not write, as equations. -/
theorem LoopState.unwritten {w : Nat} {next : Block → Bits → Block} {out : Block → Bits → Bits}
    {input : Block → Bits → Block} {dir : Direction} {s t : State} {n : Nat}
    (h : LoopState w next out input dir s n t) :
    t.din = s.din ∧ t.k = s.k ∧ t.kvalid = s.kvalid ∧ t.ivreg = s.ivreg ∧ t.pending = s.pending ∧
      t.replies = s.replies := by
  rw [h.frame]
  exact ⟨rfl, rfl, rfl, rfl, rfl, rfl⟩

/-- States that differ at most in the hidden registers, element by element (R38). -/
theorem sameVisible_iff (s t : State) : SameVisible s t ↔
    t.din = s.din ∧ t.dout = s.dout ∧ t.k = s.k ∧ t.kvalid = s.kvalid ∧ t.ivreg = s.ivreg ∧ t.padlen = s.padlen ∧
    t.err = s.err ∧ t.pending = s.pending ∧ t.replies = s.replies := by
  constructor
  · intro h
    unfold SameVisible at h
    rw [h]
    simp
  · rintro ⟨h1, h2, h3, h4, h5, h6, h7, h8, h9⟩
    unfold SameVisible
    cases s
    cases t
    simp at *
    simp [*]

end Sys2Proof.Machine
end

