-- ==== Sys2Proof/Laws/Transactions.lean ====
section
/-! SUPPORT. What REGMAP allows (00_scope.md R8), and which transaction a bus access is. -/

namespace Sys2Proof

@[simp] theorem Config.RegMap.number_addr (m : Config.RegMap) (n : Nat) : m.number (m.addr n) = some n :=
  (m.number_eq_some _ _).2 rfl

theorem Config.RegMap.addr_injective (m : Config.RegMap) : Function.Injective m.addr := fun a b h =>
  Option.some.inj (by rw [← m.number_addr a, h, m.number_addr b])

/-- Every injective map from register numbers to addresses is a REGMAP of the model (R8: "any injective map"). -/
theorem Config.RegMap.exists_of_injective {f : Nat → Nat} (hf : Function.Injective f) :
    ∃ m : Config.RegMap, m.addr = f := by
  classical
  refine ⟨⟨f, fun a => if h : ∃ n, f n = a then some h.choose else none, fun a n => ?_⟩, rfl⟩
  split
  · next h => rw [Option.some.injEq]; exact ⟨fun e => e ▸ h.choose_spec, fun e => hf (h.choose_spec.trans e.symm)⟩
  · next h => exact ⟨fun e => (nomatch e), fun e => absurd ⟨n, e⟩ h⟩

/-- The address map is all there is to a REGMAP: it settles what number an address reads as. -/
theorem Config.RegMap.eq_of_addr {m m' : Config.RegMap} (h : m.addr = m'.addr) : m = m' := by
  have hn : m.number = m'.number := funext fun a => Option.ext fun n => by
    rw [m.number_eq_some, m'.number_eq_some, h]
  cases m; cases m'; cases h; cases hn; rfl

namespace Machine

@[simp] theorem busWrite_addr (m : Config.RegMap) (n v : Nat) :
    busWrite m (m.addr n) v = some (.writeReg n v) := by simp [busWrite, busRegister]

@[simp] theorem busRead_addr (m : Config.RegMap) (n : Nat) :
    busRead m (m.addr n) = some (.readReg n) := by simp [busRead, busRegister]

/-- An address of no register number reads as none. -/
theorem busRegister_none {m : Config.RegMap} {a : Nat} (h : ∀ n, m.addr n ≠ a) : busRegister m a = none :=
  Option.eq_none_iff_forall_ne_some.2 fun n e => h n ((m.number_eq_some a n).1 e)

end Machine

end Sys2Proof
end

