-- ==== Sys2Proof/Tests/Slice0.lean ====
section
/-! SUPPORT. The model's own tests: the smoke test of well-formedness, every command's decoding from a word written out
bit by bit, one or two single-step vectors per command (all from spec/95_test_vectors.md, spec/41_key_schedule.md R166
and spec/42_feistel_block.md R188), and for every obligation with hypotheses a witness that meets them. -/

namespace Sys2Proof.Tests

-- One theorem after another: the kernel evaluations side by side would take too much memory.
set_option Elab.async false

open Sys2Proof Sys2Proof.Machine

/-! ## Helpers -/

/-- The first `n` bits of a value written most significant first. -/
abbrev bits (n v : Nat) : Bits := natToBits n v

/-- The sixteen subkeys of the key 0x133457799BBCDFF1 (R166). -/
def katKeys : SubkeySet :=
  #v[0x1B02EFFC7072, 0x79AED9DBC9E5, 0x55FC8A42CF99, 0x72ADD6DB351D, 0x7CEC07EB53A8, 0x63A53E507B2F, 0xEC84B7F618BC,
     0xF78A3AC13BFB, 0xE0DBEBEDE781, 0xB1F347BA464F, 0x215FD3DED386, 0x7571F59467E9, 0x97C5D1FABA41, 0x5F43B7F2E73A,
     0xBF918D3D3F0A, 0xCB3D8B0E17F5]

/-- Reset with an operand loaded. -/
def loaded (din : Bits) : State := { State.reset with din := din }

/-- The same with the KAT subkeys in use and IVREG set. -/
def keyed (iv : Block) (din : Bits) : State := { loaded din with k := katKeys, kvalid := true, ivreg := iv }

/-- The same state with one transaction pending. -/
def facing (e : HostEvent) (s : State) : State := { s with pending := [e] }

/-- A check on the state one step after the issue of a word. -/
def after (c : Byte) (s : State) (check : State → Bool) : Bool :=
  match step (facing (.issue c) s) with
  | .next t => check t
  | .fault _ => false
  | .refused _ => false

/-- DOUT and ERR after the issue of a word. -/
def gives (c : Byte) (s : State) (dout : Bits) (err : BitVec 4) : Bool :=
  after c s fun t => t.dout == dout && t.err == err

/-! ## Well-formedness: one ill-formed term per check -/

/-- R92, R94, R98: DIR or SEL out of its group's range, a mode tag of 5 or 15, a reserved group. -/
theorem test_wf_fields_refused :
    (Fields.mk 0b000 0b0 0b0111).wf = false ∧ (Fields.mk 0b000 0b0 0b1111).wf = false ∧
    (Fields.mk 0b000 0b1 0b0000).wf = false ∧ (Fields.mk 0b000 0b1 0b1111).wf = false ∧
    (Fields.mk 0b001 0b0 0b0010).wf = false ∧ (Fields.mk 0b001 0b1 0b0000).wf = false ∧
    (Fields.mk 0b010 0b0 0b0001).wf = false ∧ (Fields.mk 0b010 0b1 0b0001).wf = false ∧
    (Fields.mk 0b011 0b0 0b0101).wf = false ∧ (Fields.mk 0b011 0b1 0b1111).wf = false ∧
    (Fields.mk 0b100 0b0 0b0001).wf = false ∧ (Fields.mk 0b100 0b1 0b0001).wf = false ∧
    (Fields.mk 0b101 0b0 0b0001).wf = false ∧ (Fields.mk 0b101 0b1 0b0000).wf = false ∧
    (Fields.mk 0b110 0b0 0b0000).wf = false ∧ (Fields.mk 0b111 0b1 0b1111).wf = false := by decide

/-- R35: a write of IVREG needs v < 2^64. -/
theorem test_wf_ivreg_value :
    (HostEvent.writeReg 2 (2 ^ 64)).wf = false ∧ (HostEvent.writeReg 2 (2 ^ 64 - 1)).wf = true :=
  by decide

/-- R35: a load needs a sequence within the capacity, whatever the capacity is. -/
theorem test_wf_load (m : Nat) (h : Config.maxBits = some m) :
    (HostEvent.load (List.replicate (m + 1) false)).wf = false ∧
    (HostEvent.load (List.replicate m false)).wf = true := by
  simp [HostEvent.wf, h]

/-! ## Decoding: every command from its word, bit by bit (R97), and the neighbours of every range (95, section 2.6) -/

theorem test_decode_perm :
    decodeTableWord 8 0b00000000 = some .permIp ∧ decodeTableWord 8 0b00000001 = some .permFp ∧
    decodeTableWord 8 0b00000010 = some .permE ∧ decodeTableWord 8 0b00000011 = some .permP ∧
    decodeTableWord 8 0b00000100 = some .permPc1 ∧ decodeTableWord 8 0b00000101 = some .permPc2 ∧
    decodeTableWord 8 0b00000110 = some .sbox := by decide

theorem test_decode_key :
    decodeTableWord 8 0b00100000 = some .keygen ∧ decodeTableWord 8 0b00100001 = some .keyclr := by decide

theorem test_decode_blk :
    decodeTableWord 8 0b01000000 = some .blkEnc ∧ decodeTableWord 8 0b01010000 = some .blkDec := by decide

theorem test_decode_xf_enc :
    decodeTableWord 8 0b01100000 = some .xfEcbEnc ∧ decodeTableWord 8 0b01100001 = some .xfCbcEnc ∧
    decodeTableWord 8 0b01100010 = some .xfCfbEnc ∧ decodeTableWord 8 0b01100011 = some .xfOfbEnc ∧
    decodeTableWord 8 0b01100100 = some .xfCtrEnc := by decide

theorem test_decode_xf_dec :
    decodeTableWord 8 0b01110000 = some .xfEcbDec ∧ decodeTableWord 8 0b01110001 = some .xfCbcDec ∧
    decodeTableWord 8 0b01110010 = some .xfCfbDec ∧ decodeTableWord 8 0b01110011 = some .xfOfbDec ∧
    decodeTableWord 8 0b01110100 = some .xfCtrDec := by decide

theorem test_decode_buf :
    decodeTableWord 8 0b10000000 = some .pad ∧ decodeTableWord 8 0b10010000 = some .unpad ∧
    decodeTableWord 8 0b10100000 = some .mov := by decide

theorem test_decode_unsupported_mode :
    decodeWord 0x65 = .unsupportedMode ∧ decodeWord 0x6F = .unsupportedMode ∧ decodeWord 0x75 = .unsupportedMode ∧
    decodeWord 0x7F = .unsupportedMode := by decide

theorem test_decode_illegal_command :
    decodeWord 0x07 = .illegalCommand ∧ decodeWord 0x0F = .illegalCommand ∧ decodeWord 0x10 = .illegalCommand ∧
    decodeWord 0x22 = .illegalCommand ∧ decodeWord 0x30 = .illegalCommand ∧ decodeWord 0x41 = .illegalCommand ∧
    decodeWord 0x51 = .illegalCommand ∧ decodeWord 0x81 = .illegalCommand ∧ decodeWord 0x9F = .illegalCommand ∧
    decodeWord 0xA1 = .illegalCommand ∧ decodeWord 0xB0 = .illegalCommand ∧ decodeWord 0xC0 = .illegalCommand ∧
    decodeWord 0xFF = .illegalCommand := by decide

/-- R100: upper case, no operand field, no alias. -/
theorem test_assemble :
    assemble "XF.CBC.DEC" = some 0x71 ∧ assemble "MOV" = some 0xA0 ∧ assemble "mov" = none ∧
    assemble "XF.CBC.DEC " = none := by decide +kernel

/-- R63: each byte most significant bit first. -/
theorem test_bytes_first_bit :
    bytesToBits [0x80] = [true, false, false, false, false, false, false, false] ∧ bitsToBytes (bits 16 0x8001) = [0x80, 0x01] :=
  by decide

/-! ## One step of every command (95, sections 2.1 to 2.5) -/

theorem test_permIp :
    gives 0x00 (loaded (bits 64 0x123456789ABCDEF)) (bits 64 0xCC00CCFFF0AAF0AA) 0 = true :=
  by decide +kernel

theorem test_permIp_width : gives 0x00 (loaded (bits 65 0x123456789ABCDEF)) ([]) 6 = true := by decide +kernel

theorem test_permFp :
    gives 0x01 (loaded (bits 64 0xA4CD99543423234)) (bits 64 0x85E813540F0AB405) 0 = true :=
  by decide +kernel

theorem test_permE : gives 0x02 (loaded (bits 32 0xF0AAF0AA)) (bits 48 0x7A15557A1555) 0 = true := by decide +kernel

theorem test_permE_ends : gives 0x02 (loaded (bits 32 0x1)) (bits 48 0x800000000002) 0 = true := by decide +kernel

theorem test_permP : gives 0x03 (loaded (bits 32 0x5C82B597)) (bits 32 0x234AA9BB) 0 = true := by decide +kernel

theorem test_permPc1 :
    gives 0x04 (loaded (bits 64 0x133457799BBCDFF1)) (bits 56 0xF0CCAAF556678F) 0 = true :=
  by decide +kernel

theorem test_permPc2 :
    gives 0x05 (loaded (bits 56 0xE19955FAACCF1E)) (bits 48 0x1B02EFFC7072) 0 = true :=
  by decide +kernel

theorem test_sbox : gives 0x06 (loaded (bits 48 0x6117BA866527)) (bits 32 0x5C82B597) 0 = true := by decide +kernel

theorem test_sbox_row :
    gives 0x06 (loaded (bits 48 0x6C0000000000)) (bits 32 0x5FA72C4D) 0 = true :=
  by decide +kernel

/-- R166. -/
theorem test_keygen :
    after 0x20 (loaded (bits 64 0x133457799BBCDFF1))
      (fun t => t.k == katKeys && t.kvalid && t.c == 0xF0CCAAF && t.d == 0x556678F && t.err == 0) = true :=
  by decide +kernel

/-- A wrong length leaves the set in use. -/
theorem test_keygen_length :
    after 0x20 (keyed 0 (bits 63 0)) (fun t => t.k == katKeys && t.kvalid && t.err == 1) = true :=
  by decide +kernel

theorem test_keyclr :
    after 0x21 { keyed 0 [] with dout := [true], c := 1, d := 1, err := 8 }
      (fun t => t.k == zeroSubkeys && !t.kvalid && t.c == 0 && t.d == 0 && t.err == 0 && t.dout == [true]) = true :=
  by decide +kernel

/-- R188. -/
theorem test_blkEnc :
    after 0x40 (keyed 0x0 (bits 64 0x123456789ABCDEF))
      (fun t => t.dout == bits 64 0x85E813540F0AB405 && t.l == 0x43423234 && t.r == 0x0A4CD995 && t.cs == 0) = true :=
  by decide +kernel

theorem test_blkEnc_length : gives 0x40 (keyed 0x0 (bits 65 0x1)) ([]) 2 = true := by decide +kernel

theorem test_blkDec :
    gives 0x50 (keyed 0x0 (bits 64 0x123456789ABCDEF)) (bits 64 0xEE0F7C12E0B09338) 0 = true :=
  by decide +kernel

theorem test_blkDec_noSubkeys : gives 0x50 (loaded (bits 65 0x1)) ([]) 5 = true := by decide +kernel

theorem test_xfEcbEnc :
    gives 0x60 (keyed 0x0 (bits 128 0x123456789ABCDEF0100000000000000)) (bits 128 0x85E813540F0AB40538D473A19748340F) 0 = true :=
  by decide +kernel

theorem test_xfEcbEnc_alignment : gives 0x60 (keyed 0x0 (bits 65 0x1)) ([]) 3 = true := by decide +kernel

theorem test_xfEcbDec :
    gives 0x70 (keyed 0x0 (bits 128 0x123456789ABCDEFFEDCBA9876543210)) (bits 128 0xEE0F7C12E0B093387D4D8B4E525E14ED) 0 = true :=
  by decide +kernel

theorem test_xfCbcEnc :
    after 0x61 (keyed 0x1234567890ABCDEF (bits 128 0x123456789ABCDEF0123456789ABCDEF))
      (fun t => t.dout == bits 128 0xF02B595EB219AB97E6DB189E19AF7792 && t.uidx == 2) = true :=
  by decide +kernel

theorem test_xfCbcDec :
    gives 0x71 (keyed 0x0 (bits 128 0x123456789ABCDEF0123456789ABCDEF)) (bits 128 0xEE0F7C12E0B09338EF2C3975691B5ED7) 0 = true :=
  by decide +kernel

theorem test_xfCfbEnc :
    after 0x62 (keyed 0x0 (bits 24 0x414243))
      (fun t => t.dout == bits 24 0xD53FA6 && t.cs == 0x0000000000D53FA6 && t.uidx == 3) = true :=
  by decide +kernel

/-- A last segment of 4 bits (R218). -/
theorem test_xfCfbEnc_short : gives 0x62 (keyed 0x0 (bits 20 0xABCDE)) (bits 20 0x3F081) 0 = true := by decide +kernel

theorem test_xfCfbDec : gives 0x72 (keyed 0x0 (bits 24 0x414243)) (bits 24 0xD5B6D0) 0 = true := by decide +kernel

theorem test_xfOfbEnc :
    after 0x63 (keyed 0x0 (bits 80 0x123456789ABCDEF0123))
      (fun t => t.dout == bits 80 0x95A9069E032882913FDA && t.cs == 0x3EF9BCD75E6965F2 && t.uidx == 2) = true :=
  by decide +kernel

theorem test_xfOfbDec :
    gives 0x73 (keyed 0x0 (bits 80 0x95A9069E032882913FDA)) (bits 80 0x123456789ABCDEF0123) 0 = true :=
  by decide +kernel

/-- V7. -/
theorem test_xfCtrEnc_wrap :
    after 0x64 (keyed 0xFFFFFFFFFFFFFFFF (bits 80 0x123456789ABCDEF0123))
      (fun t => t.dout == bits 80 0x5B1EF6635FE2E91295A9 && t.cs == 0x0000000000000001 && t.uidx == 2) = true :=
  by decide +kernel

/-- V7 with the substitute CTR_MOD = 4: counters 3, 0, 1. -/
theorem test_ctr_small_modulus :
    ((units 64 (bits 192 0x0123456789ABCDEF0123456789ABCDEF0123456789ABCDEF)).foldl (xfIteration (ctrUnit 4))
      (keyed 0 [] |> fun s => { s with cs := 3 })).dout = bits 192 0xB3A6D222EE17845395A9069E032882915C7A91218EE29795 :=
  by decide +kernel

theorem test_xfCtrDec :
    gives 0x74 (keyed 0x0 (bits 80 0x95A9069E032882915C7A)) (bits 80 0x123456789ABCDEF0123) 0 = true :=
  by decide +kernel

theorem test_pad :
    after 0x80 (loaded (bits 72 0x0123456789ABCDEF01))
      (fun t => t.dout == bits 128 0x0123456789ABCDEF0100000000000000 && t.padlen == 56 && t.err == 0) = true :=
  by decide +kernel

/-- V6: a whole extra block of zeros. -/
theorem test_pad_whole_block :
    after 0x80 (loaded (bits 64 0x0123456789ABCDEF))
      (fun t => t.dout == bits 128 0x0123456789ABCDEF0000000000000000 && t.padlen == 64) = true :=
  by decide +kernel

theorem test_unpad :
    after 0x90 { loaded (bits 16 0xFFFF) with padlen := 4 }
      (fun t => t.dout == bits 12 0xFFF && t.padlen == 4 && t.err == 0) = true :=
  by decide +kernel

theorem test_unpad_too_long :
    after 0x90 { loaded (bits 8 0xFF) with padlen := 9 } (fun t => t.dout == [] && t.padlen == 9 && t.err == 7) = true :=
  by decide +kernel

theorem test_mov :
    after 0xA0 { loaded [true] with dout := bits 16 0xABCD, err := 8 }
      (fun t => t.dout == bits 16 0xABCD && t.din == bits 16 0xABCD && t.err == 0) = true :=
  by decide +kernel

/-- 95, section 2.6: the order of the checks (R257). -/
theorem test_priority :
    gives 0x40 (loaded (bits 65 0)) [] 5 = true ∧ gives 0x60 (loaded (bits 65 0)) [] 5 = true ∧
    gives 0x6F (loaded (bits 65 0)) [] 4 = true ∧ gives 0x20 (loaded (bits 65 0)) [] 1 = true ∧
    gives 0xFF (loaded (bits 65 0)) [] 8 = true :=
  by decide +kernel

/-! ## Witnesses: for every obligation with hypotheses, states and operands that meet them together -/

/-- A key set is in use and IVREG is not zero: the state most witnesses start from. -/
def ready (n : Nat) : State := keyed 0x1234567890ABCDEF (List.replicate n true)

theorem witness_DecodeAndEncodeAgree : decodeWord 0xA0 = .command .mov := by decide

theorem witness_StepRunsTheDecodedCommand :
    (∃ s : State, s.pending = [.issue 0x74] ∧ decodeWord 0x74 = .command .xfCtrDec) ∧
    (∃ s : State, s.pending = [.writeReg 0 0x1A0, .read] ∧ decodeWord (BitVec.ofNat 8 (0x1A0 % 256)) = .command .mov) :=
  ⟨⟨facing (.issue 0x74) State.reset, rfl, by decide⟩,
   ⟨{ State.reset with pending := [.writeReg 0 0x1A0, .read] }, rfl, by decide⟩⟩

/-- Both clauses, at the ends of the ranges. -/
theorem witness_RejectedWordsFailByTheWordAlone :
    (∀ c ∈ [0x65#8, 0x6F, 0x75, 0x7F], c.extractLsb' 5 3 = 3 ∧ 5 ≤ (c.extractLsb' 0 4).toNat) ∧
    (∀ c ∈ [0x07#8, 0x0F, 0x10, 0x22, 0x41, 0x51, 0x81, 0x91, 0xA1, 0xFF], (∀ i : Instr, encode i ≠ c) ∧
      ¬ (c.extractLsb' 5 3 = 3 ∧ 5 ≤ (c.extractLsb' 0 4).toNat)) := by
  refine ⟨by decide, ?_⟩
  intro c hc
  refine ⟨fun i => ?_, ?_⟩
  · revert c
    cases i <;> decide
  · revert c
    decide

/-- Each transaction can be the one pending; a register number of each clause, at its ends. -/
theorem witness_HostTransactionsActAsListed :
    (∀ e ∈ [HostEvent.load [], .load [true], .read, .writeReg 0 255, .writeReg 0 256, .writeReg 1 7,
        .writeReg 2 (2 ^ 64 - 1), .writeReg 2 (2 ^ 64), .writeReg 3 127, .writeReg 3 128, .writeReg 4 0, .readReg 0,
        .readReg 1, .readReg 2, .readReg 3, .readReg 4, .readReg 5, .readReg 6, .readReg 0x0F, .readReg 0x10,
        .readReg 0x1F, .readReg 0x20, .issue 0x00, .issue 0xFF],
      (facing e State.reset).pending = e :: []) ∧
    Inv State.reset ∧ State.reset.kvalid = false ∧ (0x1F : Nat) = 0x10 + (15 : Fin 16).val :=
  ⟨fun _ _ => rfl, ⟨wf_reset, by decide, fun _ => ⟨rfl, rfl, rfl⟩, fun h => absurd h (by decide),
    fun _ _ => Nat.zero_le _⟩, rfl, by decide⟩

theorem witness_HostReadsBackWhatItWrote :
    (∃ (s : State) (v : Nat), v < 2 ^ 64 ∧ s.pending = .writeReg 2 v :: .readReg 2 :: [] ∧ v = 2 ^ 64 - 1) ∧
    (∃ s : State, s.pending = .writeReg 3 128 :: .readReg 3 :: []) :=
  ⟨⟨{ State.reset with pending := [.writeReg 2 (2 ^ 64 - 1), .readReg 2] }, 2 ^ 64 - 1, by decide, rfl, rfl⟩,
   ⟨{ State.reset with pending := [.writeReg 3 128, .readReg 3] }, rfl⟩⟩

theorem witness_PlainTransactionsReachNoProtectedState :
    issuedWord (.writeReg 1 0xFF) = none ∧ HostEvent.writeReg 1 0xFF ≠ .reset ∧
    transact (.writeReg 1 0xFF) (ready 64) = .next (ready 64) := ⟨rfl, by decide, rfl⟩

theorem witness_IdleEngineHoldsItsState : (ready 65).pending = [] := rfl

/-- A platform map: a register of eight bytes from 0x4000 up for each number. -/
def platformMap : Config.RegMap where
  addr n := 0x4000 + 8 * n
  number a := if 0x4000 ≤ a ∧ a % 8 = 0 then some ((a - 0x4000) / 8) else none
  number_eq_some a n := by
    split
    · rw [Option.some.injEq]; omega
    · exact ⟨fun h => (nomatch h), fun h => by omega⟩

/-- Reserved numbers at both ends of their ranges; an address of no register. -/
theorem witness_BusAddressesReachTheirRegisters :
    ((0x06 ≤ 0x06 ∧ 0x06 ≤ 0x0F) ∨ 0x20 ≤ 0x06) ∧ ((0x06 ≤ 0x0F ∧ 0x0F ≤ 0x0F) ∨ 0x20 ≤ 0x0F) ∧
    ((0x06 ≤ 0x20 ∧ 0x20 ≤ 0x0F) ∨ 0x20 ≤ 0x20) ∧ ∀ n, platformMap.addr n ≠ 0x4001 :=
  ⟨by decide, by decide, by decide, fun n h => by simp only [platformMap] at h; omega⟩

/-- R34's row "0x20 and above": the address of number 0x20 is a transaction, which reads 0 and ignores a write. -/
theorem test_bus_reserved :
    busRead platformMap 0x4100 = some (.readReg 0x20) ∧ busWrite platformMap 0x4100 5 = some (.writeReg 0x20 5) ∧
    transact (.readReg 0x20) (ready 64) = .next { ready 64 with replies := [.value 0] } ∧
    transact (.writeReg 0x20 5) (ready 64) = .next (ready 64) := by
  exact ⟨rfl, rfl, rfl, rfl⟩

theorem witness_ResetEventOverwritesEveryElement : (facing .reset (ready 64)).pending = .reset :: [] := rfl

/-- An operand of each table's width, and one of none. -/
theorem witness_PermCommandsSelectTheTablesBits :
    (∀ n ∈ [32, 56, 64], (loaded (List.replicate n true)).din.length = n) ∧ (loaded []).din.length ≠ 32 ∧
    (loaded []).din.length ≠ 64 ∧ (loaded []).din.length ≠ 56 := by decide

theorem witness_SboxCommandLooksUpEightGroups :
    (loaded (List.replicate 48 true)).din.length = 48 ∧ (loaded (List.replicate 47 true)).din.length ≠ 48 := by decide

theorem witness_InitialAndFinalPermutationUndoEachOther :
    ∃ s t : State, s.din.length = 64 ∧ s.pending = .issue 0x00 :: .issue 0xA0 :: .issue 0x01 :: [] ∧
      t.din.length = 64 ∧ t.pending = .issue 0x01 :: .issue 0xA0 :: .issue 0x00 :: [] :=
  ⟨{ ready 64 with pending := [.issue 0x00, .issue 0xA0, .issue 0x01] },
   { ready 64 with pending := [.issue 0x01, .issue 0xA0, .issue 0x00] }, by decide, rfl, by decide, rfl⟩

theorem witness_KeygenDerivesTheSubkeySet :
    (ready 64).din.length = 64 ∧ (ready 63).din.length ≠ 64 ∧ (ready 65).din.length ≠ 64 ∧
    (ready 0).din.length ≠ 64 := by decide

/-- Two different keys that differ only at the positions 8, 16, ..., 64 (95, section 2.2). -/
theorem witness_KeyScheduleProperties :
    (∀ p < 64, p % 8 ≠ 7 →
      (0x133457799BBCDFF1#64).getMsbD p = (0x123456789ABCDEF0#64).getMsbD p) ∧
    0x133457799BBCDFF1#64 ≠ 0x123456789ABCDEF0#64 := by decide +kernel

/-- No subkeys; and a KEYGEN that sets KVALID. -/
theorem witness_KeyclrDiscardsTheSubkeySet :
    (loaded (List.replicate 64 true)).kvalid = false ∧
    ∃ t, transact (.issue 0x20) (loaded (List.replicate 64 true)) = .next t ∧ t.kvalid = true :=
  ⟨rfl, _, exec_keygen (by decide), rfl⟩

/-- A whole number of bytes, and none. -/
theorem witness_BytesAreMostSignificantBitFirst :
    (List.replicate 16 true).length % 8 = 0 ∧ ([] : Bits).length % 8 = 0 ∧ 1 < (List.replicate 16 true).length / 8 := by
  decide

theorem witness_SubkeysPersist :
    transact (.issue 0xA0) (ready 64) = .next { ready 64 with din := [] } ∧ HostEvent.issue 0xA0 ≠ .reset ∧
    issuedWord (.issue 0xA0) ≠ some 0x20 ∧ issuedWord (.issue 0xA0) ≠ some 0x21 :=
  ⟨rfl, by decide, by decide, by decide⟩

/-- Each clause: a block, no subkeys, a wrong length on either side. -/
theorem witness_BlockCommandsRunSixteenRounds :
    ((ready 64).kvalid = true ∧ (ready 64).din.length = 64) ∧ (loaded []).kvalid = false ∧
    ((ready 63).kvalid = true ∧ (ready 63).din.length ≠ 64) ∧ (ready 65).din.length ≠ 64 := by decide

theorem witness_BlockCommandsUndoEachOther :
    ∃ s : State, s.kvalid = true ∧ s.din.length = 64 ∧ s.pending = .issue 0x40 :: .issue 0xA0 :: .issue 0x50 :: [] :=
  ⟨{ ready 64 with pending := [.issue 0x40, .issue 0xA0, .issue 0x50] }, rfl, by decide, rfl⟩

theorem witness_NoSubkeysComesBeforeTheLengthChecks : (loaded (List.replicate 65 true)).kvalid = false := rfl

/-- Each clause: not aligned, any length, the empty stream. -/
theorem witness_MisalignedStreamsFailInEcbAndCbcOnly :
    (ready 65).din.length % 64 ≠ 0 ∧ (ready 63).din.length % 64 ≠ 0 ∧ (ready 0).din = [] := by decide

theorem witness_EmptyStreamSucceedsInEveryMode : (ready 0).kvalid = true ∧ (ready 0).din = [] := by decide

/-- The three clauses of ECB and of CBC in either direction: aligned (none, one and two blocks), no subkeys, not
aligned. -/
theorem witness_EcbTransformsEachBlockAlone :
    (∀ n ∈ [0, 64, 128], (ready n).kvalid = true ∧ (ready n).din.length % 64 = 0) ∧
    (ready 0).din.length / 64 = 0 ∧ 0 < (ready 64).din.length / 64 ∧ (loaded []).kvalid = false ∧
    (ready 63).din.length % 64 ≠ 0 := by decide +kernel

theorem witness_CbcEncryptChainsOnTheOutput :
    (∀ n ∈ [0, 64, 128], (ready n).kvalid = true ∧ (ready n).din.length % 64 = 0) ∧ (ready 127).kvalid = true ∧
    (ready 127).din.length % 64 ≠ 0 := by decide +kernel

theorem witness_CbcDecryptChainsOnTheInput :
    (∀ n ∈ [0, 64, 128], (ready n).kvalid = true ∧ (ready n).din.length % 64 = 0) ∧ (ready 1).kvalid = true ∧
    (ready 1).din.length % 64 ≠ 0 := by decide +kernel

/-- The stream modes: nothing but KVALID is asked, so the empty stream, one bit, one unit and a short last unit. -/
theorem witness_stream_modes :
    (∀ n ∈ [0, 1, 8, 9, 64, 65], (ready n).kvalid = true ∧ (ready n).din.length = n) ∧
    (loaded [true]).kvalid = false := by decide +kernel

/-- For the aligned modes the empty stream and one block, for the others one bit as well. -/
theorem witness_DecryptionUndoesEncryptionInEveryMode :
    (∀ n ∈ [0, 64], withinCapacity (List.replicate n true).length = true ∧ (List.replicate n true).length % 64 = 0) ∧
    withinCapacity [true].length = true ∧ (ready 0).kvalid = true ∧
    ∃ s : State, s.kvalid = true ∧ s.pending = .load [true] :: .issue 0x62 :: .issue 0xA0 :: .issue 0x72 :: [] :=
  ⟨fun n hn => ⟨withinCapacity_small (by revert n; decide), by revert n; decide⟩, withinCapacity_small (by decide),
    rfl, { ready 0 with pending := [.load [true], .issue 0x62, .issue 0xA0, .issue 0x72] }, rfl, rfl⟩

theorem witness_EcbRepeatsAndCbcDoesNot :
    (keyed 1 (toBits 5#64 ++ toBits 5#64)).kvalid = true ∧
    (keyed 1 (toBits 5#64 ++ toBits 5#64)).din = toBits 5#64 ++ toBits 5#64 := ⟨rfl, rfl⟩

/-- A first part of one block; a second part that is empty, a block, and (for CTR) one bit. -/
theorem witness_SplitStreamsContinueFromTheNamedIv :
    (ready 0).kvalid = true ∧ (List.replicate 64 true).length % 64 = 0 ∧ 0 < (List.replicate 64 true).length ∧
    ([] : Bits).length % 64 = 0 := by decide

theorem witness_SplitCfbStreamsContinueFromTheLastCiphertext :
    (ready 0).kvalid = true ∧ (List.replicate 72 true).length % 8 = 0 ∧ 64 ≤ (List.replicate 64 true).length ∧
    (List.replicate 64 true).length % 8 = 0 := by decide

theorem witness_WrongIvSpoilsOnlyTheStart :
    (ready 128).kvalid = true ∧ (ready 128).din.length % 64 = 0 ∧ 0 < (ready 128).din.length ∧
    (ready 0).din.length % 64 = 0 := by decide +kernel

/-- The lengths on both sides of a block boundary, and the last one whose result is 128 bits. -/
theorem witness_PadAppendsZerosAndRecordsHowMany :
    ∀ n ∈ [0, 1, 63, 64, 65, 127], (loaded (List.replicate n true)).din.length
      + (64 - (loaded (List.replicate n true)).din.length % 64) ≤ 128 := by decide +kernel

/-- PADLEN 0, the whole stream, and one more than the stream. -/
theorem witness_UnpadRemovesExactlyPadlenBits :
    (loaded []).padlen.toNat ≤ (loaded []).din.length ∧
    (∀ p ∈ [(0 : BitVec 7), 8], ({ loaded (bits 8 0xFF) with padlen := p } : State).padlen.toNat ≤ 8) ∧
    (loaded (bits 8 0xFF)).din.length < ({ loaded (bits 8 0xFF) with padlen := 9 } : State).padlen.toNat := by decide

theorem witness_UnpadUndoesPad :
    (∀ X ∈ [[], [true], List.replicate 64 false], withinCapacity (X.length + 1) = true) ∧
    ∃ s : State, s.pending = .load [true] :: .issue 0x80 :: .issue 0xA0 :: .issue 0x90 :: [] :=
  ⟨fun X hX => withinCapacity_small (by revert X; decide),
    { ready 0 with pending := [.load [true], .issue 0x80, .issue 0xA0, .issue 0x90] }, rfl⟩

/-- A state with a key in use meets the invariant; so does one from which a step goes on. -/
theorem witness_EveryStepKeepsTheInvariant :
    (∀ key, Inv { ready 0 with
      din := [], k := subkeysOf key, c := (keySchedule key).2.1, d := (keySchedule key).2.2 }) ∧
    Inv (facing (.issue 0xA0) State.reset) ∧ step (facing (.issue 0xA0) State.reset) = .next State.reset :=
  ⟨fun key => ⟨wf_reset, Nat.zero_le _, fun h => Bool.noConfusion h, fun _ => ⟨key, rfl, rfl⟩, fun _ _ => Nat.zero_le _⟩,
   ⟨wf_reset, Nat.zero_le _, fun _ => ⟨rfl, rfl, rfl⟩, fun h => Bool.noConfusion h, fun _ _ => Nat.zero_le _⟩, rfl⟩

/-- Two states that differ in all six hidden registers. -/
theorem witness_HiddenRegistersCannotBeObserved :
    SameVisible State.reset { State.reset with c := 1, d := 2, l := 3, r := 4, cs := 5, uidx := 6 } := rfl

theorem witness_LegalScriptsNeverStop :
    LegalScript { State.reset with pending := [.load [true], .writeReg 2 (2 ^ 64 - 1), .issue 0xFF, .reset] } := by
  have h : (HostEvent.load [true]).wf = true := withinCapacity_small (by decide)
  intro e he
  simp only [List.mem_cons, List.not_mem_nil, or_false] at he
  rcases he with rfl | rfl | rfl | rfl
  · exact h
  · decide
  · decide
  · decide

theorem witness_MovCopiesTheOutputBuffer :
    exec .keyclr State.reset = .next State.reset ∧ Instr.keyclr ≠ .mov ∧ Memory.wf State.reset = true :=
  ⟨rfl, by decide, wf_reset⟩

theorem witness_FailureChangesErrAndDoutOnly :
    (∃ t, exec .keygen (loaded [true]) = .next t ∧ t.err ≠ 0) ∧ ∃ t, hostIssue 0xFF (ready 1) = .next t ∧ t.err ≠ 0 :=
  ⟨⟨_, rfl, by decide⟩, _, rfl, by decide⟩

theorem witness_SuccessWritesOnlyTheNamedElements : ∃ t, exec .mov (ready 64) = .next t ∧ t.err = 0 := ⟨_, rfl, rfl⟩

/-- Two different states that agree on what UNPAD reads. -/
theorem witness_ResultsDependOnTheReadElementsOnly :
    ∃ t t', SameOperands .unpad (loaded [true]) (ready 1) ∧ exec .unpad (loaded [true]) = .next t ∧
      exec .unpad (ready 1) = .next t' ∧ loaded [true] ≠ ready 1 :=
  ⟨_, _, ⟨rfl, rfl⟩, rfl, rfl, fun h => absurd (congrArg State.kvalid h) (by decide)⟩

end Sys2Proof.Tests
end

section
/-! Proofs for the scope family (00_scope.md): what the register transactions do at a reserved number, and what a bus
access at a platform address is. -/

namespace Sys2Proof.Machine

/-- A register number that R34's table reserves: 0x06 to 0x0F, and 0x20 and above. -/
def ReservedNumber (n : Nat) : Prop := (0x06 ≤ n ∧ n ≤ 0x0F) ∨ 0x20 ≤ n

theorem readReg_of_reserved {n : Nat} (h : ReservedNumber n) (s : State) : readReg n s = 0 := by
  have hlow : n ≠ 0x00 ∧ n ≠ 0x01 ∧ n ≠ 0x02 ∧ n ≠ 0x03 ∧ n ≠ 0x04 ∧ n ≠ 0x05 := by
    unfold ReservedNumber at h; omega
  have hkey : ¬ (0x10 ≤ n ∧ n ≤ 0x1F) := by
    unfold ReservedNumber at h; omega
  simp only [readReg, hlow, hkey, if_false]

/-- CMD, IVREG and PADLEN are the only numbers a register write can act on (R33 to R35). -/
theorem hostWriteReg_ignored {n : Nat} (hcmd : n ≠ 0x00) (hiv : n ≠ 0x02) (hpad : n ≠ 0x03) (v : Nat) (s : State) :
    hostWriteReg n v s = .next s := by
  simp only [hostWriteReg, hcmd, hiv, hpad, if_false]

theorem transact_readReg_of_reserved {n : Nat} (h : ReservedNumber n) (s : State) :
    transact (.readReg n) s = .next { s with replies := s.replies ++ [.value 0] } := by
  simp only [transact, hostReadReg, readReg_of_reserved h, reply]

theorem transact_writeReg_of_reserved {n : Nat} (h : ReservedNumber n) (v : Nat) (s : State) :
    transact (.writeReg n v) s = .next s := by
  unfold ReservedNumber at h
  exact hostWriteReg_ignored (by omega) (by omega) (by omega) v s

theorem busWrite_none {m : Config.RegMap} {a : Nat} (h : ∀ n, m.addr n ≠ a) (v : Nat) : busWrite m a v = none := by
  rw [busWrite, busRegister_none h, Option.map_none]

theorem busRead_none {m : Config.RegMap} {a : Nat} (h : ∀ n, m.addr n ≠ a) : busRead m a = none := by
  rw [busRead, busRegister_none h, Option.map_none]

/-- Settles O11: REGMAP is injective and its reading inverts it, so a bus access is the register's transaction, and the
register transactions at a reserved number reply 0 and write nothing. -/
theorem busAddressesReachTheirRegisters : Obligations.BusAddressesReachTheirRegisters := by
  unfold Obligations.BusAddressesReachTheirRegisters
  intro m
  refine ⟨fun n n' h => m.addr_injective h, fun n v => ⟨busWrite_addr m n v, busRead_addr m n⟩, ?reserved,
    fun a v h => ⟨busWrite_none h v, busRead_none h⟩⟩
  case reserved =>
    intro n v s h
    have hread := transact_readReg_of_reserved h s
    have hwrite := transact_writeReg_of_reserved h v s
    exact ⟨by rw [busRead_addr, Option.map_some, hread], by rw [busWrite_addr, Option.map_some, hwrite]⟩

end Sys2Proof.Machine
end

section
/-! Proofs for the state family (10_state.md): what a transaction and a step can do, what a command leaves of the
host's lists, the key registers and UIDX, and the step invariant built from them. -/

namespace Sys2Proof.Machine

/-! ### What a command can do, from its answer -/

theorem answers_of_exec {i : Instr} {s t : State} (h : exec i s = .next t) : Answers i s t := by
  obtain ⟨t', ht', ha⟩ := exec_answers i s
  cases h.symm.trans ht'
  exact ha

theorem WritesOnly.hostLists {i : Instr} {s t : State} (h : WritesOnly i s t) :
    t.pending = s.pending ∧ t.replies = s.replies := by
  cases i <;> exact ⟨(congrArg State.pending h :), (congrArg State.replies h :)⟩

/-- No command touches the host's two lists. -/
theorem exec_hostLists {i : Instr} {s t : State} (h : exec i s = .next t) :
    t.pending = s.pending ∧ t.replies = s.replies := by
  obtain ⟨-, hw⟩ | ⟨kind, -, rfl⟩ := answers_of_exec h
  · exact hw.hostLists
  · exact ⟨rfl, rfl⟩

theorem errorCode_toNat_le (kind : ErrorKind) : (errorCode kind).toNat ≤ 8 := by
  cases kind <;> decide

/-- A command leaves 0 or a produced code in ERR (R250). -/
theorem exec_err_le {i : Instr} {s t : State} (h : exec i s = .next t) : t.err.toNat ≤ 8 := by
  obtain ⟨herr, -⟩ | ⟨kind, -, rfl⟩ := answers_of_exec h
  · simp [herr]
  · exact errorCode_toNat_le kind

/-- The registers that hold key material, K, C and D, and KVALID are the same in both states (R22 to R24). -/
def SameKeyRegisters (s t : State) : Prop :=
  t.k = s.k ∧ t.kvalid = s.kvalid ∧ t.c = s.c ∧ t.d = s.d

/-- Everything a command can do to the key registers: nothing, a load of some key's schedule, or clearing them (R163,
R164). -/
theorem exec_keyRegisters {i : Instr} {s t : State} (h : exec i s = .next t) :
    SameKeyRegisters s t ∨ (∃ key, t = loadSubkeys key s) ∨
      (t.kvalid = false ∧ t.k = zeroSubkeys ∧ t.c = 0 ∧ t.d = 0) := by
  obtain ⟨-, hw⟩ | ⟨kind, -, rfl⟩ := answers_of_exec h
  case inr => exact .inl ⟨rfl, rfl, rfl, rfl⟩
  cases i with
  | keygen =>
    cases h
    obtain ⟨-, hrun⟩ | ⟨-, hfail⟩ := withOperand_cases 64 .invalidKeyLength loadSubkeys s
    · exact .inr (.inl ⟨_, hrun⟩)
    · rw [hfail]
      exact .inl ⟨rfl, rfl, rfl, rfl⟩
  | keyclr =>
    cases h
    exact .inr (.inr ⟨rfl, rfl, rfl, rfl⟩)
  | _ => exact .inl ⟨(congrArg State.k hw :), (congrArg State.kvalid hw :), (congrArg State.c hw :), (congrArg State.d hw :)⟩

theorem unitCount_mono (w : Nat) {m n : Nat} (h : m ≤ n) : unitCount w m ≤ unitCount w n :=
  Nat.div_le_div_right (by omega)

/-- A stream has no more blocks than bytes. -/
theorem unitCount_blocks_le (n : Nat) : unitCount 64 n ≤ unitCount 8 n := by
  unfold unitCount
  omega

/-- The checks of an XF command leave UIDX alone; what runs after them may count the units of DIN. -/
theorem xfChecked_uidx_le {aligned : Bool} {run : State → State} {s : State}
    (hrun : (aligned = true → s.din.length % 64 = 0) → (run s).uidx ≤ unitCount 8 s.din.length) :
    (xfChecked aligned run s).uidx ≤ max s.uidx (unitCount 8 s.din.length) := by
  obtain ⟨-, h⟩ | ⟨-, -, -, h⟩ | ⟨-, ha, h⟩ := xfChecked_cases aligned run s <;> rw [h]
  · exact le_max_left _ _
  · exact le_max_left _ _
  · exact le_max_of_le_right (hrun ha)

/-- Only the XF commands write UIDX, and they leave in it the number of units of DIN, at most one for every eight bits
(R27, R208). -/
theorem exec_uidx_le {i : Instr} {s t : State} (h : exec i s = .next t) :
    t.uidx ≤ max s.uidx (unitCount 8 s.din.length) := by
  have hblocks := unitCount_blocks_le s.din.length
  obtain ⟨-, hw⟩ | ⟨kind, -, rfl⟩ := answers_of_exec h
  case inr => exact le_max_left _ _
  cases i with
  | xfEcbEnc => cases h; exact xfChecked_uidx_le fun ha => (ecb_loop .enc s (ha rfl)).uidx_eq.trans_le hblocks
  | xfEcbDec => cases h; exact xfChecked_uidx_le fun ha => (ecb_loop .dec s (ha rfl)).uidx_eq.trans_le hblocks
  | xfCbcEnc => cases h; exact xfChecked_uidx_le fun ha => (cbcEnc_loop s (ha rfl)).uidx_eq.trans_le hblocks
  | xfCbcDec => cases h; exact xfChecked_uidx_le fun ha => (cbcDec_loop s (ha rfl)).uidx_eq.trans_le hblocks
  | xfCfbEnc => cases h; exact xfChecked_uidx_le fun _ => (cfbEnc_loop s).uidx_eq.le
  | xfCfbDec => cases h; exact xfChecked_uidx_le fun _ => (cfbDec_loop s).uidx_eq.le
  | xfOfbEnc | xfOfbDec => cases h; exact xfChecked_uidx_le fun _ => (ofb_loop s).uidx_eq.trans_le hblocks
  | xfCtrEnc | xfCtrDec => cases h; exact xfChecked_uidx_le fun _ => (ctr_loop _ s).uidx_eq.trans_le hblocks
  | _ => exact le_max_of_le_left (congrArg State.uidx hw :).le

/-! ### What the issue of a word can do -/

theorem hostIssue_command {c : Byte} {i : Instr} (h : decodeWord c = .command i) (s : State) :
    hostIssue c s = exec i s := by
  simp only [hostIssue, h]

/-- A word runs the command it decodes to, or takes the failure entry (R99, R255, R258). -/
theorem hostIssue_cases (c : Byte) (s : State) :
    (∃ i, decodeWord c = .command i ∧ hostIssue c s = exec i s) ∨
    (∃ kind, hostIssue c s = .next (raiseError kind s)) := by
  cases h : decodeWord c with
  | command i => exact .inl ⟨i, rfl, hostIssue_command h s⟩
  | unsupportedMode => exact .inr ⟨.unsupportedMode, by simp only [hostIssue, h]⟩
  | illegalCommand => exact .inr ⟨.illegalCommand, by simp only [hostIssue, h]⟩

/-- Issuing a word goes on in every state and leaves the host's lists alone (R296). -/
theorem hostIssue_completes (c : Byte) (s : State) :
    ∃ t, hostIssue c s = .next t ∧ t.pending = s.pending ∧ t.replies = s.replies := by
  obtain ⟨i, -, h⟩ | ⟨kind, h⟩ := hostIssue_cases c s
  · obtain ⟨t, ht, -⟩ := exec_answers i s
    exact ⟨t, h.trans ht, exec_hostLists ht⟩
  · exact ⟨_, h, rfl, rfl⟩

theorem ofNat_8_mod_256 (v : Nat) : BitVec.ofNat 8 (v % 256) = BitVec.ofNat 8 v := by
  apply BitVec.eq_of_toNat_eq
  simp

theorem ofNat_7_mod_128 (v : Nat) : BitVec.ofNat 7 (v % 128) = BitVec.ofNat 7 v := by
  apply BitVec.eq_of_toNat_eq
  simp

theorem decodeWord_encode (i : Instr) : decodeWord (encode i) = .command i := by
  cases i <;> rfl

theorem tableWord_toNat (c : Byte) : tableWord 8 c.toNat = c := by
  rw [tableWord, Nat.mod_eq_of_lt c.isLt, BitVec.ofNat_toNat, BitVec.setWidth_eq]

/-! ### What a transaction and a step can do -/

/-- Everything a register write can do (R33 to R35). -/
theorem hostWriteReg_cases (n v : Nat) (s : State) :
    (n = 0 ∧ hostWriteReg n v s = hostIssue (BitVec.ofNat 8 v) s) ∨
    (n = 2 ∧ v < 2 ^ 64 ∧ hostWriteReg n v s = .next (writeIvreg v s)) ∨
    (n = 2 ∧ ¬ v < 2 ^ 64 ∧ hostWriteReg n v s = .refused .ivregValueTooWide) ∨
    (n = 3 ∧ hostWriteReg n v s = .next (writePadlen v s)) ∨
    (n ≠ 0 ∧ n ≠ 2 ∧ n ≠ 3 ∧ hostWriteReg n v s = .next s) := by
  by_cases h0 : n = 0
  · exact .inl ⟨h0, if_pos h0⟩
  by_cases h2 : n = 2
  · subst h2
    by_cases hv : v < 2 ^ 64
    · exact .inr (.inl ⟨rfl, hv, if_pos hv⟩)
    · exact .inr (.inr (.inl ⟨rfl, hv, if_neg hv⟩))
  by_cases h3 : n = 3
  · subst h3
    exact .inr (.inr (.inr (.inl ⟨rfl, rfl⟩)))
  · exact .inr (.inr (.inr (.inr ⟨h0, h2, h3, hostWriteReg_ignored h0 h2 h3 v s⟩)))

/-- A transaction that issues a word is the issue of that word (R33, R35). -/
theorem transact_of_issuedWord {e : HostEvent} {c : Byte} (h : issuedWord e = some c) (s : State) :
    transact e s = hostIssue c s := by
  cases e with
  | issue c' => cases h; rfl
  | writeReg n v =>
    by_cases hn : n = 0
    · subst hn
      cases h
      rfl
    · simp [issuedWord, hn] at h
  | _ => cases h

/-- Everything a transaction can do that issues no word and is not the reset event: a load that fits, a reply, a write of
IVREG or of PADLEN, or nothing (R35). -/
theorem transact_plain_cases {e : HostEvent} {s t : State} (hplain : issuedWord e = none) (hreset : e ≠ .reset)
    (h : transact e s = .next t) :
    (∃ v, fits v.length = true ∧ t = loadDin v s) ∨ (∃ r, t = reply r s) ∨ (∃ v, t = writeIvreg v s) ∨
      (∃ v, t = writePadlen v s) ∨ t = s := by
  cases e with
  | load v =>
    by_cases hv : fits v.length = true
    · rw [transact, hostLoad, if_pos hv] at h
      cases h
      exact .inl ⟨v, hv, rfl⟩
    · rw [transact, hostLoad, if_neg hv] at h
      cases h
  | read => cases h; exact .inr (.inl ⟨_, rfl⟩)
  | readReg n => cases h; exact .inr (.inl ⟨_, rfl⟩)
  | writeReg n v =>
    obtain ⟨rfl, -⟩ | ⟨-, -, hw⟩ | ⟨-, -, hw⟩ | ⟨-, hw⟩ | ⟨-, -, -, hw⟩ := hostWriteReg_cases n v s
    · cases hplain
    all_goals cases hw.symm.trans h
    · exact .inr (.inr (.inl ⟨v, rfl⟩))
    · exact .inr (.inr (.inr (.inl ⟨v, rfl⟩)))
    · exact .inr (.inr (.inr (.inr rfl)))
  | issue c => cases hplain
  | reset => exact absurd rfl hreset

/-- A transaction that meets R35's preconditions goes on and leaves the host's list of transactions alone. -/
theorem transact_completes {e : HostEvent} (hwf : e.wf = true) (s : State) :
    ∃ t, transact e s = .next t ∧ t.pending = s.pending := by
  have hissue (c : Byte) : ∃ t, hostIssue c s = .next t ∧ t.pending = s.pending := by
    obtain ⟨t, ht, hp, -⟩ := hostIssue_completes c s
    exact ⟨t, ht, hp⟩
  cases e with
  | load v => exact ⟨_, if_pos ((fits_eq_withinCapacity _).trans hwf), rfl⟩
  | read => exact ⟨_, rfl, rfl⟩
  | readReg n => exact ⟨_, rfl, rfl⟩
  | issue c => exact hissue c
  | reset => exact ⟨_, rfl, rfl⟩
  | writeReg n v =>
    obtain ⟨rfl, -⟩ | ⟨-, -, hw⟩ | ⟨rfl, hv, -⟩ | ⟨-, hw⟩ | ⟨-, -, -, hw⟩ := hostWriteReg_cases n v s
    · exact hissue _
    · exact ⟨_, hw, rfl⟩
    · exact absurd (by simpa [HostEvent.wf] using hwf) hv
    · exact ⟨_, hw, rfl⟩
    · exact ⟨_, hw, rfl⟩

theorem step_of_idle {s : State} (h : s.pending = []) : step s = .next s := by
  simp [step, serveNext, h]

theorem step_issue {s : State} {c : Byte} {rest : List HostEvent} (h : s.pending = .issue c :: rest) :
    step s = hostIssue c { s with pending := rest } := step_of_pending h

theorem step_writeReg {s : State} {n v : Nat} {rest : List HostEvent} (h : s.pending = .writeReg n v :: rest) :
    step s = hostWriteReg n v { s with pending := rest } := step_of_pending h

theorem step_readReg {s : State} {n : Nat} {rest : List HostEvent} (h : s.pending = .readReg n :: rest) :
    step s = .next { s with pending := rest, replies := s.replies ++ [.value (readReg n s)] } := step_of_pending h

/-! ### The invariant -/

/-- The invariant does not look at the host's two lists, at IVREG or at PADLEN, nor at L, R and CS. -/
theorem Inv.of_sameKeyRegisters {s t : State} (hs : Inv s) (hbuf : Memory.wf t = true) (herr : t.err.toNat ≤ 8)
    (hkey : SameKeyRegisters s t) (huidx : t.uidx = s.uidx) : Inv t := by
  obtain ⟨hk, hv, hc, hd⟩ := hkey
  refine ⟨hbuf, herr, ?noKey, ?someKey, huidx ▸ hs.unitIndex⟩
  case noKey =>
    rw [hk, hv, hc, hd]
    exact hs.noKey
  case someKey =>
    rw [hk, hv, hc, hd]
    exact hs.someKey

theorem Inv.raiseError {s : State} (hs : Inv s) (kind : ErrorKind) : Inv (raiseError kind s) :=
  hs.of_sameKeyRegisters (wf_raiseError kind hs.buffers) (errorCode_toNat_le kind) ⟨rfl, rfl, rfl, rfl⟩ rfl

theorem Inv.setPending {s : State} (hs : Inv s) (rest : List HostEvent) : Inv { s with pending := rest } :=
  hs.of_sameKeyRegisters hs.buffers hs.errCode ⟨rfl, rfl, rfl, rfl⟩ rfl

/-- The reset values meet the invariant, whatever the host's lists hold (R281). -/
theorem inv_applyReset (s : State) : Inv (applyReset s) :=
  ⟨wf_reset, Nat.zero_le _, fun _ => ⟨rfl, rfl, rfl⟩, fun h => Bool.noConfusion h, fun _ _ => Nat.zero_le _⟩

theorem le_of_fits {n m : Nat} (h : fits n = true) (hm : Config.maxBits = some m) : n ≤ m := by
  simpa [fits_eq, hm] using h

/-- Every command keeps the invariant. -/
theorem exec_keeps_inv {i : Instr} {s t : State} (h : exec i s = .next t) (hs : Inv s) : Inv t := by
  refine ⟨exec_keeps_wf h hs.buffers, exec_err_le h, ?noKey, ?someKey, ?unitIndex⟩
  case noKey =>
    intro hv
    obtain ⟨ek, ev, ec, ed⟩ | ⟨key, rfl⟩ | ⟨-, hzero⟩ := exec_keyRegisters h
    · rw [ek, ec, ed]
      exact hs.noKey (ev ▸ hv)
    · exact Bool.noConfusion hv
    · exact hzero
  case someKey =>
    intro hv
    obtain ⟨ek, ev, ec, ed⟩ | ⟨key, rfl⟩ | ⟨hclear, -⟩ := exec_keyRegisters h
    · rw [ek, ec, ed]
      exact hs.someKey (ev ▸ hv)
    · exact ⟨key, rfl, rfl⟩
    · exact Bool.noConfusion (hclear.symm.trans hv)
  case unitIndex =>
    intro m hm
    have hdin : s.din.length ≤ m := le_of_fits ((Memory.wf_iff s).1 hs.buffers).1 hm
    exact (exec_uidx_le h).trans (max_le (hs.unitIndex m hm) (unitCount_mono 8 hdin))

theorem hostIssue_keeps_inv {c : Byte} {s t : State} (h : hostIssue c s = .next t) (hs : Inv s) : Inv t := by
  obtain ⟨i, -, hc⟩ | ⟨kind, hc⟩ := hostIssue_cases c s
  · exact exec_keeps_inv (hc.symm.trans h) hs
  · cases hc.symm.trans h
    exact hs.raiseError kind

/-- Every transaction keeps the invariant: it issues a word, resets, or writes only what the invariant does not look at
and a load that fits. -/
theorem transact_keeps_inv {e : HostEvent} {s t : State} (h : transact e s = .next t) (hs : Inv s) : Inv t := by
  cases hword : issuedWord e with
  | some c => exact hostIssue_keeps_inv ((transact_of_issuedWord hword s).symm.trans h) hs
  | none =>
    by_cases hreset : e = .reset
    · subst hreset
      cases h
      exact inv_applyReset s
    · obtain ⟨v, hv, rfl⟩ | ⟨r, rfl⟩ | ⟨v, rfl⟩ | ⟨v, rfl⟩ | rfl := transact_plain_cases hword hreset h
      · exact hs.of_sameKeyRegisters (wf_loadDin hs.buffers hv) hs.errCode ⟨rfl, rfl, rfl, rfl⟩ rfl
      · exact hs.of_sameKeyRegisters hs.buffers hs.errCode ⟨rfl, rfl, rfl, rfl⟩ rfl
      · exact hs.of_sameKeyRegisters hs.buffers hs.errCode ⟨rfl, rfl, rfl, rfl⟩ rfl
      · exact hs.of_sameKeyRegisters hs.buffers hs.errCode ⟨rfl, rfl, rfl, rfl⟩ rfl
      · exact hs

/-- Settles O47: a step is idle or performs one transaction, and every transaction keeps the invariant. -/
theorem everyStepKeepsTheInvariant : Obligations.EveryStepKeepsTheInvariant := by
  unfold Obligations.EveryStepKeepsTheInvariant
  intro s t hs h
  cases hp : s.pending with
  | nil =>
    cases (step_of_idle hp).symm.trans h
    exact hs
  | cons e rest => exact transact_keeps_inv ((step_of_pending hp).symm.trans h) (hs.setPending rest)

/-- Settles O51: an idle step holds the state; otherwise the oldest transaction meets its precondition, so it completes,
and those left are among those that met theirs. -/
theorem legalScriptsNeverStop : Obligations.LegalScriptsNeverStop := by
  unfold Obligations.LegalScriptsNeverStop
  intro s hlegal
  cases hp : s.pending with
  | nil => exact ⟨s, step_of_idle hp, hp, hlegal⟩
  | cons e rest =>
    obtain ⟨t, ht, htp⟩ := transact_completes (hlegal e (by simp [hp])) { s with pending := rest }
    have htail : t.pending = s.pending.tail := by rw [htp, hp, List.tail_cons]
    exact ⟨t, (step_of_pending hp).trans ht, htail.trans (congrArg List.tail hp),
      fun e' he' => hlegal e' (List.mem_of_mem_tail (htail ▸ he'))⟩

/-- Settles O4: the step removes the transaction and issues its word, and the decoder reads a command's word back as that
command. -/
theorem stepRunsTheDecodedCommand : Obligations.StepRunsTheDecodedCommand := by
  unfold Obligations.StepRunsTheDecodedCommand
  refine ⟨fun s c rest i hp hd => ?issue, fun s v rest i hp hd => ?writeCmd, fun s i => ?fetch⟩
  case issue => rw [step_issue hp, hostIssue_command hd]
  case writeCmd =>
    rw [ofNat_8_mod_256] at hd
    rw [step_of_pending hp, transact_of_issuedWord rfl, hostIssue_command hd]
  case fetch =>
    have hp : (s.withFetchWord 8 (encode i).toNat).pending = .issue (encode i) :: s.pending := by
      rw [State.withFetchWord, tableWord_toNat]
    rw [step_issue hp, hostIssue_command (decodeWord_encode i)]
    rfl

/-! ### The registers the host reads -/

/-- STATUS as a number (R32). -/
theorem status_toNat (s : State) : (status s).toNat = s.err.toNat + 16 * s.kvalid.toNat := by
  have hlt : s.err.toNat < 2 ^ 4 := s.err.isLt
  simp only [status, BitVec.toNat_append, BitVec.toNat_ofBool]
  rw [← Nat.shiftLeft_add_eq_or_of_lt hlt, Nat.shiftLeft_eq]
  cases s.kvalid <;> simp [Nat.add_comm]

theorem readReg_subkey (s : State) (i : Fin 16) : readReg (0x10 + i.val) s = s.k[i].toNat := by
  have hlow : ∀ m < 0x10, 0x10 + i.val ≠ m := by omega
  have hhigh : 0x10 + i.val ≤ 0x1F := by omega
  simp [readReg, hlow, hhigh]

@[simp] theorem zeroSubkeys_get (i : Fin 16) : zeroSubkeys[i] = 0 := by
  simp [zeroSubkeys]

/-- Without a key the invariant makes every subkey register read as 0 (R22, R35). -/
theorem Inv.subkey_eq_zero {s : State} (hs : Inv s) (hv : s.kvalid = false) (i : Fin 16) : s.k[i] = 0 := by
  rw [(hs.noKey hv).1, zeroSubkeys_get]

theorem step_load {s : State} {v : Bits} {rest : List HostEvent} (h : s.pending = .load v :: rest) :
    step s = if withinCapacity v.length then .next { s with pending := rest, din := v } else .refused .loadTooLong := by
  rw [step_of_pending h, transact, hostLoad, fits_eq_withinCapacity]
  rfl

/-- Settles O6: each transaction by the rule of its step, a register write by the number it names. -/
theorem hostTransactionsActAsListed : Obligations.HostTransactionsActAsListed := by
  unfold Obligations.HostTransactionsActAsListed
  intro s rest
  refine ⟨fun v h => step_load h, fun h => step_of_pending h, fun n v h => ?writeReg, fun n h => ?readReg,
    fun c h => ?issue⟩
  case writeReg =>
    rw [step_writeReg h]
    obtain ⟨rfl, hw⟩ | ⟨rfl, hv, hw⟩ | ⟨rfl, hv, hw⟩ | ⟨rfl, hw⟩ | ⟨h0, h2, h3, hw⟩ :=
      hostWriteReg_cases n v { s with pending := rest } <;> rw [hw]
    · rw [ofNat_8_mod_256]
      rfl
    · exact (if_pos hv).symm
    · exact (if_neg hv).symm
    · rw [ofNat_7_mod_128]
      rfl
    · simp [h0, h2, h3]
  case readReg =>
    refine ⟨readReg n s, step_readReg h, ?_, ?_, ?_, ?_, ?_, ?_, ?_, ?_, ?_⟩
    · rintro rfl; rfl
    · rintro rfl; exact status_toNat s
    · rintro rfl; rfl
    · rintro rfl; rfl
    · rintro rfl; rfl
    · rintro rfl; rfl
    · rintro i rfl
      refine ⟨readReg_subkey s i, fun hs hv => ?_⟩
      rw [readReg_subkey, hs.subkey_eq_zero hv i]
      rfl
    · exact fun hn => readReg_of_reserved (.inl hn) s
    · exact fun hn => readReg_of_reserved (.inr hn) s
  case issue =>
    obtain ⟨t, ht, hpending, hreplies⟩ := hostIssue_completes c { s with pending := rest }
    exact ⟨t, (step_issue h).trans ht, ht, hpending, hreplies, fun i hd => (hostIssue_command hd _).symm.trans ht⟩

/-- Settles O7: STATUS is the concatenation of three zeros, KVALID and ERR, and no write names its number. -/
theorem statusShowsErrAndKvalid : Obligations.StatusShowsErrAndKvalid := by
  unfold Obligations.StatusShowsErrAndKvalid
  intro s
  refine ⟨BitVec.extractLsb'_append_eq_right, ?kvalid, ?top, rfl, fun v => ?write⟩
  case kvalid =>
    rw [status, BitVec.extractLsb'_append_eq_of_le (by decide)]
    exact BitVec.extractLsb'_append_eq_right
  case top =>
    rw [status, BitVec.extractLsb'_append_eq_of_le (by decide)]
    exact BitVec.extractLsb'_append_eq_left
  case write => exact hostWriteReg_ignored (by decide) (by decide) (by decide) v s

/-- Settles O8: the write puts the value, reduced to the register's width, in the register, and the read returns it. -/
theorem hostReadsBackWhatItWrote : Obligations.HostReadsBackWhatItWrote := by
  unfold Obligations.HostReadsBackWhatItWrote
  intro s v rest
  refine ⟨fun hv hp => ?ivreg, fun hp => ?padlen⟩
  case ivreg =>
    have hwrite : step s = .next (writeIvreg v { s with pending := .readReg 2 :: rest }) :=
      (step_writeReg hp).trans (if_pos hv)
    have hval : readReg 2 (writeIvreg v { s with pending := .readReg 2 :: rest }) = v := Nat.mod_eq_of_lt hv
    refine ⟨_, (run_of_step hwrite).trans (run_of_step (step_readReg rfl)), ?_, rfl⟩
    rw [hval]
    rfl
  case padlen =>
    exact ⟨_, (run_of_step (step_writeReg hp)).trans (run_of_step (step_readReg rfl)), rfl, rfl⟩

/-- Settles O9: each of the five things such a transaction can do writes one of the four elements named, or none. -/
theorem plainTransactionsReachNoProtectedState : Obligations.PlainTransactionsReachNoProtectedState := by
  unfold Obligations.PlainTransactionsReachNoProtectedState
  intro e s t hword hreset h
  obtain ⟨v, -, rfl⟩ | ⟨r, rfl⟩ | ⟨v, rfl⟩ | ⟨v, rfl⟩ | rfl := transact_plain_cases hword hreset h <;> rfl

end Sys2Proof.Machine
end

section
/-! Proofs for the memory family (20_memory.md): bytes as bit sequences, each byte most significant bit first, and the
bytes of a bit sequence. -/

namespace Sys2Proof.Machine

@[simp] theorem length_bitsToBytes (s : Bits) : (bitsToBytes s).length = s.length / 8 := by
  simp [bitsToBytes]

/-- The first eight bits of a sequence are its first byte. -/
theorem bitsToBytes_append {a : Bits} (h : a.length = 8) (s : Bits) :
    bitsToBytes (a ++ s) = ofBits 8 a :: bitsToBytes s := by
  have hlen : (a ++ s).length / 8 = s.length / 8 + 1 := by
    rw [List.length_append, h]
    omega
  have hhead : ((a ++ s).drop (8 * 0)).take 8 = a := List.take_left' h
  have htail (j : Nat) : (a ++ s).drop (8 * (j + 1)) = s.drop (8 * j) := by
    rw [Nat.mul_succ, Nat.add_comm, ← List.drop_drop, List.drop_left' h]
  simp only [bitsToBytes, hlen, List.range_succ_eq_map, List.map_cons, List.map_map, hhead]
  simp [Function.comp_def, htail]

/-- Byte sequences are recovered from their bits. -/
@[simp] theorem bitsToBytes_bytesToBits (bs : List Byte) : bitsToBytes (bytesToBits bs) = bs := by
  induction bs with
  | nil => rfl
  | cons b bs ih => rw [bytesToBits_cons, bitsToBytes_append (length_toBits b), ofBits_toBits, ih]

/-- Bit sequences of a whole number of bytes are recovered from their bytes. -/
theorem bytesToBits_bitsToBytes {n : Nat} {s : Bits} (h : s.length = 8 * n) : bytesToBits (bitsToBytes s) = s := by
  induction n generalizing s with
  | zero =>
    obtain rfl := List.eq_nil_of_length_eq_zero h
    rfl
  | succ n ih =>
    have hbyte : (s.take 8).length = 8 := by
      rw [List.length_take]
      omega
    have hrest : (s.drop 8).length = 8 * n := by
      rw [List.length_drop]
      omega
    calc bytesToBits (bitsToBytes s)
        = bytesToBits (bitsToBytes (s.take 8 ++ s.drop 8)) := by rw [List.take_append_drop]
      _ = s.take 8 ++ s.drop 8 := by
        rw [bitsToBytes_append hbyte, bytesToBits_cons, toBits_ofBits hbyte, ih hrest]
      _ = s := List.take_append_drop 8 s

/-- Bit `8 i + j` of a byte sequence is bit `j` of byte `i`, counted from the most significant. -/
theorem getD_bytesToBits (bs : List Byte) (i : Nat) {j : Nat} (hj : j < 8) :
    (bytesToBits bs).getD (8 * i + j) false = (bs.getD i 0).getMsbD j := by
  induction bs generalizing i with
  | nil => simp [bytesToBits]
  | cons b bs ih =>
    rw [bytesToBits_cons, getD_append_bits, length_toBits]
    cases i with
    | zero => rw [Nat.mul_zero, Nat.zero_add, if_pos hj, getD_toBits, List.getD_cons_zero]
    | succ i =>
      have hskip : 8 * (i + 1) + j - 8 = 8 * i + j := by omega
      rw [if_neg (by omega), hskip, ih, List.getD_cons_succ]

theorem getMsbD_byte (b : Byte) {j : Nat} (hj : j < 8) : b.getMsbD j = b.getLsbD (7 - j) := by
  simp [BitVec.getMsbD, hj]

/-- Settles O12: byte by byte on the bytes, eight bits at a time on the bits; the bits of `bitsToBytes s` are then those
of `bytesToBits (bitsToBytes s)`, which is `s`. -/
theorem bytesAreMostSignificantBitFirst : Obligations.BytesAreMostSignificantBitFirst := by
  unfold Obligations.BytesAreMostSignificantBitFirst
  have hbit (bs : List Byte) (i j : Nat) (hj : j < 8) :
      (bytesToBits bs).getD (8 * i + j) false = (bs.getD i 0).getLsbD (7 - j) :=
    (getD_bytesToBits bs i hj).trans (getMsbD_byte _ hj)
  refine ⟨fun bs => ⟨length_bytesToBits bs, fun i j _ hj => hbit bs i j hj, bitsToBytes_bytesToBits bs⟩,
    fun s hs => ?_⟩
  have hround : bytesToBits (bitsToBytes s) = s :=
    bytesToBits_bitsToBytes (Nat.mul_div_cancel' (Nat.dvd_of_mod_eq_zero hs)).symm
  refine ⟨length_bitsToBytes s, fun i j _ hj => ?_, hround⟩
  rw [← hbit (bitsToBytes s) i j hj, hround]

end Sys2Proof.Machine
end

section
/-! Proofs for the encoding family (30_encoding.md): the decoder through the three fields of a word, and what a command
writes and reads. -/

namespace Sys2Proof

/-! ### A word and its fields -/

/-- The word as a number, from its fields (R90). -/
theorem toNat_fieldsOf (c : Byte) :
    c.toNat = 32 * (fieldsOf c).grp.toNat + 16 * (fieldsOf c).dir.toNat + (fieldsOf c).sel.toNat := by
  have hlt := c.isLt
  simp only [fieldsOf, BitVec.extractLsb'_toNat, Nat.shiftRight_eq_div_pow]
  omega

/-- The three fields make up the whole word: no bit is dropped (R90). -/
theorem wordOf_fieldsOf (c : Byte) : wordOf (fieldsOf c) = c := by
  have hhigh : c.extractLsb' 5 3 ++ c.extractLsb' 4 1 = c.extractLsb' 4 4 :=
    BitVec.extractLsb'_append_extractLsb'_eq_extractLsb' rfl
  have hword : c.extractLsb' 4 4 ++ c.extractLsb' 0 4 = c.extractLsb' 0 8 :=
    BitVec.extractLsb'_append_extractLsb'_eq_extractLsb' rfl
  rw [wordOf, fieldsOf, hhigh, hword, BitVec.extractLsb'_eq_self]

theorem Fields.eq_ofNat (f : Fields) :
    f = ⟨BitVec.ofNat 3 f.grp.toNat, BitVec.ofNat 1 f.dir.toNat, BitVec.ofNat 4 f.sel.toNat⟩ := by
  simp only [BitVec.ofNat_toNat, BitVec.setWidth_eq]

/-! ### What decodes to a command -/

theorem encodeFields_of_permBySel {sel : Nat} {i : Instr} (h : permBySel sel = .command i) :
    encodeFields i = ⟨0, 0, BitVec.ofNat 4 sel⟩ := by
  unfold permBySel at h
  split at h <;> cases h <;> rfl

theorem encodeFields_of_xfByTag {dir sel : Nat} {i : Instr} (hdir : dir = 0 ∨ dir = 1)
    (h : xfByTag dir sel = .command i) : encodeFields i = ⟨3, BitVec.ofNat 1 dir, BitVec.ofNat 4 sel⟩ := by
  unfold xfByTag at h
  split at h <;> cases h
  case h_1 | h_2 | h_3 | h_4 | h_5 => rfl
  all_goals
    obtain rfl := hdir.resolve_left ‹_›
    rfl

/-- Fields that decode to a command are its row of the opcode map (R97). -/
theorem encodeFields_of_decodeFields {f : Fields} {i : Instr} (h : decodeFields f = .command i) :
    encodeFields i = f := by
  have hdir : f.dir.toNat = 0 ∨ f.dir.toNat = 1 := by omega
  rw [f.eq_ofNat]
  unfold decodeFields at h
  split at h
  case h_1 hg hd => rw [hg, hd]; exact encodeFields_of_permBySel h
  case h_6 hg => rw [hg]; exact encodeFields_of_xfByTag hdir h
  all_goals cases h
  all_goals simp_all [encodeFields, -BitVec.ofNat_toNat]

/-! ### What is rejected, and how -/

theorem permBySel_eq_illegalCommand (sel : Nat) : permBySel sel = .illegalCommand ↔ 7 ≤ sel := by
  unfold permBySel
  split <;> grind

theorem permBySel_ne_unsupportedMode (sel : Nat) : permBySel sel ≠ .unsupportedMode := by
  unfold permBySel
  split <;> simp

theorem xfByTag_eq_unsupportedMode (dir sel : Nat) : xfByTag dir sel = .unsupportedMode ↔ 5 ≤ sel := by
  unfold xfByTag
  split <;> grind

theorem xfByTag_ne_illegalCommand (dir sel : Nat) : xfByTag dir sel ≠ .illegalCommand := by
  unfold xfByTag
  split <;> simp

/-- The group table of R92, row by row. -/
theorem Fields.wf_iff (f : Fields) : f.wf = true ↔
    (f.grp.toNat = 0 ∧ f.dir.toNat = 0 ∧ f.sel.toNat ≤ 6) ∨ (f.grp.toNat = 1 ∧ f.dir.toNat = 0 ∧ f.sel.toNat ≤ 1) ∨
    (f.grp.toNat = 2 ∧ f.sel.toNat = 0) ∨ (f.grp.toNat = 3 ∧ f.sel.toNat ≤ 4) ∨
    (f.grp.toNat = 4 ∧ f.sel.toNat = 0) ∨ (f.grp.toNat = 5 ∧ f.dir.toNat = 0 ∧ f.sel.toNat = 0) := by
  have hdir : f.dir = 0 ↔ f.dir.toNat = 0 := BitVec.toNat_inj.symm
  have hsel : f.sel = 0 ↔ f.sel.toNat = 0 := BitVec.toNat_inj.symm
  unfold Fields.wf
  split <;> grind

/-- R94: group XF with a tag that names no mode. -/
theorem decodeFields_eq_unsupportedMode (f : Fields) :
    decodeFields f = .unsupportedMode ↔ f.grp.toNat = 3 ∧ 5 ≤ f.sel.toNat := by
  unfold decodeFields
  split
  case h_1 hg hd => simp [hg, permBySel_ne_unsupportedMode]
  case h_6 hg => simp [hg, xfByTag_eq_unsupportedMode]
  all_goals grind

/-- R98: every combination that the group table leaves out, but for those of group XF. -/
theorem decodeFields_eq_illegalCommand (f : Fields) :
    decodeFields f = .illegalCommand ↔ f.wf ≠ true ∧ f.grp.toNat ≠ 3 := by
  rw [ne_eq, f.wf_iff]
  unfold decodeFields
  split
  case h_1 hg hd => rw [permBySel_eq_illegalCommand]; omega
  case h_6 hg => simp [hg, xfByTag_ne_illegalCommand]
  all_goals grind

/-! ### The obligations about words -/

/-- Settles O1: each of the 24 words is run through the decoder. -/
theorem decodeReadsTheSpecWords : Obligations.DecodeReadsTheSpecWords := by
  unfold Obligations.DecodeReadsTheSpecWords
  decide

/-- Settles O2: the fields of a word that decodes to a command are that command's row of the encoder's table, and the
fields make up the word. -/
theorem decodeAndEncodeAgree : Obligations.DecodeAndEncodeAgree := by
  unfold Obligations.DecodeAndEncodeAgree
  refine ⟨fun i => ⟨by cases i <;> rfl, Machine.decodeWord_encode i⟩, fun c i h => ?_⟩
  rw [encode, encodeFields_of_decodeFields h, wordOf_fieldsOf]

/-- Settles O3: the rejected field combinations, read as ranges of the word's number; the counts by running the decoder
over the 256 words. -/
theorem reservedWordsAreRejectedByKind : Obligations.ReservedWordsAreRejectedByKind := by
  unfold Obligations.ReservedWordsAreRejectedByKind
  refine ⟨fun c => ?_, fun c => ?_, by decide +kernel, by decide +kernel⟩
  · rw [decodeWord, decodeFields_eq_unsupportedMode, toNat_fieldsOf]
    omega
  · rw [decodeWord, decodeFields_eq_illegalCommand, ne_eq, Fields.wf_iff, toNat_fieldsOf]
    omega

end Sys2Proof

namespace Sys2Proof.Machine

/-! ### What a command writes -/

/-- No error kind has the code of success (R250). -/
theorem raiseError_err_ne_zero (kind : ErrorKind) (s : State) : (raiseError kind s).err ≠ 0 := by
  rw [raiseError_err]
  cases kind <;> decide

/-- Settles O54: a command that succeeds did not take the failure entry, which never leaves 0 in ERR. -/
theorem successWritesOnlyTheNamedElements : Obligations.SuccessWritesOnlyTheNamedElements := by
  unfold Obligations.SuccessWritesOnlyTheNamedElements
  intro i s t h herr
  obtain ⟨-, hw⟩ | ⟨kind, -, rfl⟩ := answers_of_exec h
  · exact hw
  · exact absurd herr (raiseError_err_ne_zero kind s)

/-! ### What a command reads -/

/-- The two states hold the same ERR and the same DOUT. -/
def SameResult (t t' : State) : Prop := t.err = t'.err ∧ t.dout = t'.dout

theorem raiseError_sameResult (kind : ErrorKind) (s s' : State) : SameResult (raiseError kind s) (raiseError kind s') :=
  ⟨rfl, rfl⟩

theorem withOperand_sameResult {w : Nat} {kind : ErrorKind} {run : BitVec w → State → State} {s s' : State}
    (hdin : s'.din = s.din) (hrun : ∀ x, SameResult (run x s) (run x s')) :
    SameResult (withOperand w kind run s) (withOperand w kind run s') := by
  unfold withOperand
  rw [hdin]
  split
  · exact hrun _
  · exact raiseError_sameResult kind s s'

theorem tableCommand_sameResult (table : List Nat) (w m : Nat) {s s' : State} (hdin : s'.din = s.din) :
    SameResult (tableCommand table w m s) (tableCommand table w m s') :=
  withOperand_sameResult hdin fun _ => ⟨rfl, rfl⟩

theorem blockCommand_sameResult (dir : Direction) {s s' : State} (hdin : s'.din = s.din) (hk : s'.k = s.k)
    (hkvalid : s'.kvalid = s.kvalid) : SameResult (blockCommand dir s) (blockCommand dir s') := by
  unfold blockCommand
  rw [hkvalid]
  split
  · refine withOperand_sameResult hdin fun x => ?_
    simp [SameResult, hk]
  · exact raiseError_sameResult .noSubkeys s s'

theorem xfChecked_sameResult {aligned : Bool} {run : State → State} {s s' : State} (hdin : s'.din = s.din)
    (hkvalid : s'.kvalid = s.kvalid)
    (hrun : (aligned = true → s.din.length % 64 = 0) → SameResult (run s) (run s')) :
    SameResult (xfChecked aligned run s) (xfChecked aligned run s') := by
  obtain ⟨hv, h⟩ | ⟨hv, rfl, hn, h⟩ | ⟨hv, hn, h⟩ := xfChecked_cases aligned run s <;> rw [h]
  · rw [xfChecked_noSubkeys (hkvalid.trans hv)]
    exact raiseError_sameResult .noSubkeys s s'
  · rw [xfChecked_misaligned (hkvalid.trans hv) (hdin ▸ hn)]
    exact raiseError_sameResult .invalidStreamAlignment s s'
  · rw [xfChecked_run (hkvalid.trans hv) (hdin ▸ hn)]
    exact hrun hn

/-- The result of an XF command depends on its checks, the stream, the subkeys, and the chaining value its loop starts
from, unless the mode's output ignores it. -/
theorem xfCommand_sameResult {w : Nat} (hw : 0 < w) {aligned : Bool} {body : Bits → State → State}
    {start : State → State} {next : Block → Bits → Block} {out : Block → Bits → Bits} {input : Block → Bits → Block}
    {dir : Direction} {s s' : State} (hdin : s'.din = s.din) (hk : s'.k = s.k) (hkvalid : s'.kvalid = s.kvalid)
    (hstart : (start s').din = (start s).din) (hcs : (start s').cs = (start s).cs ∨ ∀ c c' u, out c u = out c' u)
    (hloop : ∀ r : State, r.k = s.k → (aligned = true → r.din.length % 64 = 0) →
      LoopState w next out input dir (start r) (unitCount w (start r).din.length)
        ((units w (start r).din).foldl (xfIteration body) (start r))) :
    SameResult (xfChecked aligned (fun r => xfLoop w body (start r)) s)
      (xfChecked aligned (fun r => xfLoop w body (start r)) s') := by
  refine xfChecked_sameResult hdin hkvalid fun hn => ?_
  have hdout := loop_dout_congr hw (hloop s rfl hn) (hloop s' hk (hdin ▸ hn)) hstart hcs
  exact ⟨rfl, hdout⟩

/-- The same for the modes that load the chaining value from IVREG (R207). -/
theorem xfChained_sameResult {w : Nat} (hw : 0 < w) {aligned : Bool} {body : Bits → State → State}
    {next : Block → Bits → Block} {out : Block → Bits → Bits} {input : Block → Bits → Block} {dir : Direction}
    {s s' : State} (hsame : s'.din = s.din ∧ s'.k = s.k ∧ s'.kvalid = s.kvalid ∧ s'.ivreg = s.ivreg)
    (hloop : ∀ r : State, r.k = s.k → (aligned = true → r.din.length % 64 = 0) →
      LoopState w next out input dir (loadChain (xfBegin r)) (unitCount w r.din.length)
        ((units w r.din).foldl (xfIteration body) (loadChain (xfBegin r)))) :
    SameResult (xfChecked aligned (fun r => xfLoop w body (loadChain (xfBegin r))) s)
      (xfChecked aligned (fun r => xfLoop w body (loadChain (xfBegin r))) s') := by
  obtain ⟨hdin, hk, hkvalid, hivreg⟩ := hsame
  exact xfCommand_sameResult hw hdin hk hkvalid hdin (.inl hivreg) hloop

/-- PAD is a function of DIN, its writes and its failure entry both (R201). -/
theorem pad_sameResult {s s' t t' : State} (hdin : s'.din = s.din) (h : exec .pad s = .next t)
    (h' : exec .pad s' = .next t') : SameResult t t' ∧ (t.err = 0 → t.padlen = t'.padlen) := by
  simp only [exec, execPad, hdin] at h h'
  by_cases hfits : fits (s.din.length + padCount s.din.length) = true
  · rw [if_pos hfits] at h h'
    cases h
    cases h'
    exact ⟨⟨rfl, rfl⟩, fun _ => rfl⟩
  · rw [if_neg hfits] at h h'
    cases h
    cases h'
    exact ⟨raiseError_sameResult .invalidOperandLength s s', fun herr => absurd herr (raiseError_err_ne_zero _ s)⟩

/-- UNPAD is a function of DIN and PADLEN (R202). -/
theorem unpad_sameResult {s s' t t' : State} (hdin : s'.din = s.din) (hpadlen : s'.padlen = s.padlen)
    (h : exec .unpad s = .next t) (h' : exec .unpad s' = .next t') : SameResult t t' := by
  simp only [exec, execUnpad, hdin, hpadlen] at h h'
  by_cases hle : s.padlen.toNat ≤ s.din.length
  · rw [if_pos hle] at h h'
    cases h
    cases h'
    exact ⟨rfl, rfl⟩
  · rw [if_neg hle] at h h'
    cases h
    cases h'
    exact raiseError_sameResult .invalidPadLength s s'

/-- KEYGEN's ERR is a function of DIN, and so is the key material it loads when it succeeds (R163). -/
theorem keygen_sameKey {s s' t t' : State} (hdin : s'.din = s.din) (h : exec .keygen s = .next t)
    (h' : exec .keygen s' = .next t') : t.err = t'.err ∧ (t.err = 0 → SameKeyRegisters t' t) := by
  cases h
  cases h'
  by_cases hlen : s.din.length = 64
  · rw [withOperand_run hlen, withOperand_run (hdin ▸ hlen), hdin]
    exact ⟨rfl, fun _ => ⟨rfl, rfl, rfl, rfl⟩⟩
  · rw [withOperand_fail hlen, withOperand_fail (hdin ▸ hlen)]
    exact ⟨rfl, fun herr => absurd herr (raiseError_err_ne_zero _ s)⟩

/-- ERR and DOUT of every command but those that write no DOUT when they succeed. -/
theorem exec_sameResult {i : Instr} {s s' t t' : State} (hkeygen : i ≠ .keygen) (hkeyclr : i ≠ .keyclr)
    (hmov : i ≠ .mov) (hsame : SameOperands i s s') (h : exec i s = .next t) (h' : exec i s' = .next t') :
    SameResult t t' := by
  cases i with
  | keygen => exact absurd rfl hkeygen
  | keyclr => exact absurd rfl hkeyclr
  | mov => exact absurd rfl hmov
  | pad => exact (pad_sameResult hsame h h').1
  | unpad => exact unpad_sameResult hsame.1 hsame.2 h h'
  | permIp | permFp | permE | permP | permPc1 | permPc2 =>
    cases h; cases h'
    exact tableCommand_sameResult _ _ _ hsame
  | sbox =>
    cases h; cases h'
    exact withOperand_sameResult hsame fun _ => ⟨rfl, rfl⟩
  | blkEnc | blkDec =>
    cases h; cases h'
    obtain ⟨hdin, hk, hkvalid⟩ := hsame
    exact blockCommand_sameResult _ hdin hk hkvalid
  | xfEcbEnc | xfEcbDec =>
    cases h; cases h'
    obtain ⟨hdin, hk, hkvalid⟩ := hsame
    exact xfCommand_sameResult (by decide) hdin hk hkvalid hdin (.inr fun _ _ _ => rfl) fun r hr hn =>
      hr ▸ ecb_loop _ r (hn rfl)
  | xfCbcEnc =>
    cases h; cases h'
    exact xfChained_sameResult (by decide) hsame fun r hr hn => hr ▸ cbcEnc_loop r (hn rfl)
  | xfCbcDec =>
    cases h; cases h'
    exact xfChained_sameResult (by decide) hsame fun r hr hn => hr ▸ cbcDec_loop r (hn rfl)
  | xfCfbEnc =>
    cases h; cases h'
    exact xfChained_sameResult (by decide) hsame fun r hr _ => hr ▸ cfbEnc_loop r
  | xfCfbDec =>
    cases h; cases h'
    exact xfChained_sameResult (by decide) hsame fun r hr _ => hr ▸ cfbDec_loop r
  | xfOfbEnc | xfOfbDec =>
    cases h; cases h'
    exact xfChained_sameResult (by decide) hsame fun r hr _ => hr ▸ ofb_loop r
  | xfCtrEnc | xfCtrDec =>
    cases h; cases h'
    exact xfChained_sameResult (by decide) hsame fun r hr _ => hr ▸ ctr_loop _ r

/-- ERR of every command. -/
theorem exec_sameErr {i : Instr} {s s' t t' : State} (hsame : SameOperands i s s') (h : exec i s = .next t)
    (h' : exec i s' = .next t') : t.err = t'.err := by
  cases i with
  | keygen => exact (keygen_sameKey hsame h h').1
  | keyclr | mov => cases h; cases h'; rfl
  | _ => exact (exec_sameResult (by decide) (by decide) (by decide) hsame h h').1

/-- Settles O56: ERR and DOUT by the command's form, and the registers of KEYGEN, KEYCLR, MOV and PAD one by one. -/
theorem resultsDependOnTheReadElementsOnly : Obligations.ResultsDependOnTheReadElementsOnly := by
  unfold Obligations.ResultsDependOnTheReadElementsOnly
  intro i s s' t t' hsame h h'
  refine ⟨exec_sameErr hsame h h', fun hkeygen hkeyclr hmov => ?dout, ?keygen, ?keyclr, ?mov, ?pad⟩
  case dout => exact (exec_sameResult hkeygen hkeyclr hmov hsame h h').2
  case keygen =>
    rintro rfl
    exact (keygen_sameKey hsame h h').2
  case keyclr =>
    rintro rfl
    cases h; cases h'
    exact ⟨rfl, rfl, rfl, rfl⟩
  case mov =>
    rintro rfl
    cases h; cases h'
    exact hsame.symm
  case pad =>
    rintro rfl
    exact (pad_sameResult hsame h h').2

end Sys2Proof.Machine
end

section
/-! Proofs for the permutation engine's family (40_permutation_engine.md): what a PERM command and SBOX answer on an
operand of each length, and a selection undone by another. -/

namespace Sys2Proof.Machine

/-! ### The commands that select by a table -/

theorem tableCommand_run {table : List Nat} {w m : Nat} {s : State} (hdin : s.din.length = w) :
    tableCommand table w m s = succeedWith (toBits (permute table m (ofBits w s.din))) s :=
  withOperand_run hdin

/-- A command of R133's template puts in DOUT the bits of DIN that its table names, or fails on a wrong width. -/
theorem exec_selects_or_fails {i : Instr} {table : List Nat} {w m : Nat}
    (hexec : ∀ s, exec i s = .next (tableCommand table w m s)) (hm : table.length = m) (s : State) :
    (s.din.length = w →
      exec i s = .next { s with dout := table.map fun t => s.din.getD (t - 1) false, err := 0 }) ∧
    (s.din.length ≠ w → exec i s = .next { s with err := 6, dout := [] }) := by
  constructor
  · intro hdin
    rw [hexec, tableCommand_run hdin, toBits_permute hm, toBits_ofBits hdin]
    rfl
  · intro hdin
    rw [hexec, tableCommand, withOperand_fail hdin]
    rfl

/-- Settles O16: each of the six commands is R133's template with its own table. -/
theorem permCommandsSelectTheTablesBits : Obligations.PermCommandsSelectTheTablesBits := by
  unfold Obligations.PermCommandsSelectTheTablesBits
  intro s
  simp only [List.forall_mem_cons]
  exact ⟨exec_selects_or_fails (fun _ => rfl) length_tableIp s, exec_selects_or_fails (fun _ => rfl) length_tableFp s,
    exec_selects_or_fails (fun _ => rfl) length_tableE s, exec_selects_or_fails (fun _ => rfl) length_tableP s,
    exec_selects_or_fails (fun _ => rfl) length_tablePc1 s, exec_selects_or_fails (fun _ => rfl) length_tablePc2 s,
    List.forall_mem_nil _⟩

/-! ### The S-box layer -/

/-- `bits_n(v)` sees only the last `n` bits of `v` (R11). -/
theorem toBits_ofNat (n v : Nat) : toBits (BitVec.ofNat n v) = natToBits n v := by
  apply bits_ext (by simp)
  intro i
  rw [getD_toBits, getD_natToBits, BitVec.getMsbD, BitVec.getLsbD_ofNat]
  by_cases hi : i < n
  · have hrev : n - 1 - i < n := by omega
    simp [hrev]
  · simp [hi]

/-- The table entry that group `j` of a bit sequence selects: its outer bits give the row and its middle bits the column
of box `j` (R130). -/
def sboxEntry (din : Bits) (j : Nat) : Nat :=
  let g := fun i => (din.getD (6 * (j - 1) + i) false).toNat
  ((tableS.getD (j - 1) []).getD (2 * g 0 + g 5) []).getD (8 * g 1 + 4 * g 2 + 2 * g 3 + g 4) 0

theorem sboxLookup_sboxGroup {din : Bits} (hdin : din.length = 48) {j : Nat} (hj : 1 ≤ j) (hj' : j ≤ 8) :
    sboxLookup j (sboxGroup (ofBits 48 din) j) = BitVec.ofNat 4 (sboxEntry din j) := by
  have hbit (i : Nat) (hi : i < 6) :
      (sboxGroup (ofBits 48 din) j).getMsbD i = din.getD (6 * (j - 1) + i) false := by
    rw [getMsbD_sboxGroup _ hj hj' hi, getMsbD_ofBits hdin]
  simp only [sboxLookup, sboxEntry, hbit, Nat.reduceLT]

/-- The S-box layer on a 48-bit sequence: the eight entries in order, four bits each (R131). -/
theorem toBits_sboxLayer_ofBits {din : Bits} (hdin : din.length = 48) :
    toBits (sboxLayer (ofBits 48 din)) = (List.range' 1 8).flatMap fun j => natToBits 4 (sboxEntry din j) := by
  have hboxes : [1, 2, 3, 4, 5, 6, 7, 8] = List.range' 1 8 := rfl
  rw [toBits_sboxLayer, hboxes]
  apply List.flatMap_congr
  intro j hj
  rw [List.mem_range'_1] at hj
  rw [sboxLookup_sboxGroup hdin hj.1 (by omega), toBits_ofNat]

/-- Settles O17: SBOX is the S-box layer on a 48-bit operand, and the layer is read group by group. -/
theorem sboxCommandLooksUpEightGroups : Obligations.SboxCommandLooksUpEightGroups := by
  unfold Obligations.SboxCommandLooksUpEightGroups
  intro s
  constructor
  · intro hdin
    have hrun : exec .sbox s = .next (succeedWith (toBits (sboxLayer (ofBits 48 s.din))) s) :=
      congrArg Host.Outcome.next (withOperand_run hdin)
    rw [hrun, toBits_sboxLayer_ofBits hdin]
    rfl
  · intro hdin
    exact congrArg Host.Outcome.next (withOperand_fail hdin)

/-! ### A selection undone by another -/

/-- A block selected by one table, moved back by MOV and selected by a table that undoes the first, is the block in DIN
at the start. -/
theorem run_selection_undone {c c' : Byte} {i i' : Instr} {table table' : List Nat} {s : State} {rest : List HostEvent}
    (hi : decodeWord c = .command i) (hexec : ∀ s, exec i s = .next (tableCommand table 64 64 s))
    (hi' : decodeWord c' = .command i') (hexec' : ∀ s, exec i' s = .next (tableCommand table' 64 64 s))
    (hundo : ∀ x : Block, permute table' 64 (permute table 64 x) = x) (hdin : s.din.length = 64)
    (hpending : s.pending = .issue c :: .issue 0xA0 :: .issue c' :: rest) :
    ∃ t, core.run 3 s = .next t ∧ t.dout = s.din ∧ t.err = 0 ∧ t.pending = rest := by
  have hfirst := (hexec { s with pending := .issue 0xA0 :: .issue c' :: rest }).trans
    (congrArg Host.Outcome.next (tableCommand_run hdin))
  rw [run_issue hpending hi hfirst, run_issue rfl (decodeWord_encode .mov) rfl, run_issue rfl hi' (hexec' _)]
  refine ⟨_, rfl, ?_⟩
  rw [tableCommand_run (length_toBits _)]
  refine ⟨?_, rfl, rfl⟩
  calc toBits (permute table' 64 (ofBits 64 (toBits (permute table 64 (ofBits 64 s.din)))))
      = toBits (ofBits 64 s.din) := by rw [ofBits_toBits, hundo]
    _ = s.din := toBits_ofBits hdin

/-- Settles O20: FP and IP undo each other on every block, and each order of the two commands is a selection undone. -/
theorem initialAndFinalPermutationUndoEachOther : Obligations.InitialAndFinalPermutationUndoEachOther := by
  unfold Obligations.InitialAndFinalPermutationUndoEachOther
  refine ⟨fun x => ⟨permute_fp_ip x, permute_ip_fp x⟩, fun s rest hdin hpending => ?_⟩
  have hip := decodeWord_encode .permIp
  have hfp := decodeWord_encode .permFp
  obtain hpending | hpending := hpending
  · exact run_selection_undone hip (fun _ => rfl) hfp (fun _ => rfl) permute_fp_ip hdin hpending
  · exact run_selection_undone hfp (fun _ => rfl) hip (fun _ => rfl) permute_ip_fp hdin hpending

/-! ### The printed tables -/

/-- Settles O19: each fact is read off its printed table. -/
theorem tablesHaveTheirStructure : Obligations.TablesHaveTheirStructure := by
  unfold Obligations.TablesHaveTheirStructure
  refine ⟨?fpInvertsIp, ?eOverlaps, ?pOnce, ?pc1Omits, ?pc2Omits, ?shifts, ?shiftsSum, ?sboxRows⟩
  all_goals decide

end Sys2Proof.Machine
end

section
/-! Proofs for the key schedule's family (41_key_schedule.md): the halves round by round, what KEYGEN, KEYCLR and the
users of the subkeys answer, and who writes the key registers. -/

namespace Sys2Proof.Machine

/-! ### The halves of the key schedule -/

/-- A half of the key schedule after round `i`, from its value before round 1: the rotations accumulate (R161). -/
def halfAfterRound (start : KeyHalf) (i : Nat) : KeyHalf := rotl start (tableShifts.take i).sum

theorem halfAfterRound_zero (start : KeyHalf) : halfAfterRound start 0 = start := by
  rw [← rotl_full start, halfAfterRound, rotl_rotl]
  rfl

/-- Each round rotates the half by its own shift (R128, R161). -/
theorem halfAfterRound_succ (start : KeyHalf) (i : Fin 16) :
    halfAfterRound start (i.val + 1) = (halfAfterRound start i.val).rotateLeft (tableShifts.getD i.val 0) := by
  have hsum : (tableShifts.take (i.val + 1)).sum = (tableShifts.take i.val).sum + tableShifts.getD i.val 0 := by
    rw [List.sum_take_succ _ _ i.isLt, List.getD_eq_getElem _ _ i.isLt]
  rw [halfAfterRound, hsum, ← rotl_rotl]
  rfl

/-- After round 16 a half has made a full turn (R162). -/
theorem halfAfterRound_sixteen (start : KeyHalf) : halfAfterRound start 16 = start :=
  rotl_full start

/-- The two halves before round 1 are PC-1 of the key (R161). -/
theorem scheduleStart_append (key : Block) :
    (scheduleStart key).1 ++ (scheduleStart key).2 = permute tablePc1 56 key :=
  keyHalves_append _

/-! ### What KEYGEN and the users of the subkeys answer -/

theorem exec_keygen_fail {s : State} (h : s.din.length ≠ 64) :
    exec .keygen s = .next (raiseError .invalidKeyLength s) :=
  congrArg Host.Outcome.next (withOperand_fail h)

/-- Settles O21: each half of round `i` is its start rotated by the first `i` shifts, and a subkey is PC-2 of the two. -/
theorem keygenDerivesTheSubkeySet : Obligations.KeygenDerivesTheSubkeySet := by
  unfold Obligations.KeygenDerivesTheSubkeySet
  refine fun s => ⟨fun hlen => ?_, exec_keygen_fail⟩
  refine ⟨_, halfAfterRound (scheduleStart (ofBits 64 s.din)).1, halfAfterRound (scheduleStart (ofBits 64 s.din)).2,
    exec_keygen hlen, ?start, fun i => ⟨halfAfterRound_succ _ i, halfAfterRound_succ _ i, subkeysOf_get _ i⟩, ?frame⟩
  case start => rw [halfAfterRound_zero, halfAfterRound_zero, scheduleStart_append]
  case frame => rw [halfAfterRound_sixteen, halfAfterRound_sixteen]

theorem blockCommand_noSubkeys {dir : Direction} {s : State} (h : s.kvalid = false) :
    blockCommand dir s = raiseError .noSubkeys s := by
  simp [blockCommand, h]

/-- With KVALID = 0, a command whose row of R271 names `no-subkeys` fails with it, whatever DIN holds. -/
theorem exec_noSubkeys {i : Instr} (hi : errorCode .noSubkeys ∈ raisable i) {s : State} (h : s.kvalid = false) :
    exec i s = .next (raiseError .noSubkeys s) := by
  cases i with
  | blkEnc | blkDec => exact congrArg Host.Outcome.next (blockCommand_noSubkeys h)
  | xfEcbEnc | xfCbcEnc | xfCfbEnc | xfOfbEnc | xfCtrEnc | xfEcbDec | xfCbcDec | xfCfbDec | xfOfbDec | xfCtrDec =>
    exact congrArg Host.Outcome.next (xfChecked_noSubkeys h)
  | _ => exact absurd hi (by decide)

/-! ### Who writes the key registers -/

/-- No command but KEYGEN and KEYCLR writes the key registers (R165). -/
theorem exec_sameKeyRegisters {i : Instr} (hkeygen : i ≠ .keygen) (hkeyclr : i ≠ .keyclr) {s t : State}
    (h : exec i s = .next t) : SameKeyRegisters s t := by
  obtain ⟨-, hw⟩ | ⟨kind, -, rfl⟩ := answers_of_exec h
  case inr => exact ⟨rfl, rfl, rfl, rfl⟩
  cases i with
  | keygen => exact absurd rfl hkeygen
  | keyclr => exact absurd rfl hkeyclr
  | _ =>
    exact ⟨(congrArg State.k hw :), (congrArg State.kvalid hw :), (congrArg State.c hw :), (congrArg State.d hw :)⟩

/-- A word that writes the key registers is the word of KEYGEN or of KEYCLR (R97, R165). -/
theorem hostIssue_keyRegisters {c : Byte} {s t : State} (h : hostIssue c s = .next t) :
    SameKeyRegisters s t ∨ (c = 0x20 ∧ exec .keygen s = .next t) ∨ (c = 0x21 ∧ exec .keyclr s = .next t) := by
  obtain ⟨i, hi, hc⟩ | ⟨kind, hc⟩ := hostIssue_cases c s
  · have hword : encode i = c := decodeAndEncodeAgree.2 c i hi
    have hexec : exec i s = .next t := hc.symm.trans h
    by_cases hkeygen : i = .keygen
    · subst hkeygen
      exact .inr (.inl ⟨hword.symm, hexec⟩)
    by_cases hkeyclr : i = .keyclr
    · subst hkeyclr
      exact .inr (.inr ⟨hword.symm, hexec⟩)
    exact .inl (exec_sameKeyRegisters hkeygen hkeyclr hexec)
  · cases hc.symm.trans h
    exact .inl ⟨rfl, rfl, rfl, rfl⟩

/-- Everything a transaction that is not the reset event can do to the key registers: nothing, or what the KEYGEN or
KEYCLR it issues does (R165). -/
theorem transact_keyRegisters {e : HostEvent} {s t : State} (hreset : e ≠ .reset) (h : transact e s = .next t) :
    SameKeyRegisters s t ∨ (issuedWord e = some 0x20 ∧ exec .keygen s = .next t) ∨
      (issuedWord e = some 0x21 ∧ exec .keyclr s = .next t) := by
  cases hword : issuedWord e with
  | some c => simpa using hostIssue_keyRegisters ((transact_of_issuedWord hword s).symm.trans h)
  | none =>
    obtain ⟨v, -, rfl⟩ | ⟨r, rfl⟩ | ⟨v, rfl⟩ | ⟨v, rfl⟩ | rfl := transact_plain_cases hword hreset h <;>
      exact .inl ⟨rfl, rfl, rfl, rfl⟩

/-- From KVALID = 0, KVALID = 1 is reached by the issue of KEYGEN on a 64-bit operand only (R164). -/
theorem transact_sets_kvalid {e : HostEvent} {s t : State} (h : transact e s = .next t) (hs : s.kvalid = false)
    (ht : t.kvalid = true) : issuedWord e = some 0x20 ∧ s.din.length = 64 := by
  have hchanged : t.kvalid ≠ s.kvalid := by simp [hs, ht]
  by_cases hreset : e = .reset
  · subst hreset
    cases h
    cases ht
  obtain ⟨-, hsame, -⟩ | ⟨hword, hkeygen⟩ | ⟨-, hkeyclr⟩ := transact_keyRegisters hreset h
  · exact absurd hsame hchanged
  · refine ⟨hword, Decidable.byContradiction fun hlen => hchanged ?_⟩
    cases (exec_keygen_fail hlen).symm.trans hkeygen
    rfl
  · cases hkeyclr
    cases ht

/-- Settles O23: KEYCLR's writes are its definition, the twelve commands are the ones that may raise `no-subkeys`, and of
the transactions that write KVALID only a KEYGEN that succeeds sets it. -/
theorem keyclrDiscardsTheSubkeySet : Obligations.KeyclrDiscardsTheSubkeySet := by
  unfold Obligations.KeyclrDiscardsTheSubkeySet
  refine ⟨fun s => rfl, fun s hs i hi => ?users, fun e s t => transact_sets_kvalid⟩
  case users =>
    have hraises : ∀ i ∈ [Instr.blkEnc, .blkDec, .xfEcbEnc, .xfEcbDec, .xfCbcEnc, .xfCbcDec, .xfCfbEnc, .xfCfbDec,
        .xfOfbEnc, .xfOfbDec, .xfCtrEnc, .xfCtrDec], errorCode .noSubkeys ∈ raisable i := by decide
    exact exec_noSubkeys (hraises i hi) hs

/-- Settles O24: with the words of KEYGEN and KEYCLR and the reset event left out, no transaction writes the key
registers. -/
theorem subkeysPersist : Obligations.SubkeysPersist := by
  unfold Obligations.SubkeysPersist
  intro e s t h hreset hkeygen hkeyclr
  obtain ⟨hk, hkvalid, -⟩ | ⟨hword, -⟩ | ⟨hword, -⟩ := transact_keyRegisters hreset h
  · exact ⟨hk, hkvalid⟩
  · exact absurd hword hkeygen
  · exact absurd hword hkeyclr

end Sys2Proof.Machine
end

section
/-! Proofs for the Feistel block's family (42_feistel_block.md): the pair after each round, the subkeys' order, and
what the block commands and the ECB commands answer on one block. -/

namespace Sys2Proof.Machine

/-! ### The pair round by round -/

/-- The pair `(L, R)` after `i` rounds (R182, R184). -/
def halvesAfterRound (k : SubkeySet) (dir : Direction) (b : Block) (i : Nat) : Half × Half :=
  ((subkeyOrder dir k).take i).foldl feistelRound (feistelSplit b)

@[simp] theorem length_subkeyOrder (dir : Direction) (k : SubkeySet) : (subkeyOrder dir k).length = 16 := by
  cases dir <;> simp [subkeyOrder]

theorem halvesAfterRound_zero (k : SubkeySet) (dir : Direction) (b : Block) :
    halvesAfterRound k dir b 0 = feistelSplit b := rfl

theorem halvesAfterRound_succ (k : SubkeySet) (dir : Direction) (b : Block) {i : Nat} (h : i < 16) :
    halvesAfterRound k dir b (i + 1) = feistelRound (halvesAfterRound k dir b i) ((subkeyOrder dir k).getD i 0) :=
  foldl_take_succ _ _ (by simpa using h)

theorem halvesAfterRound_sixteen (k : SubkeySet) (dir : Direction) (b : Block) :
    halvesAfterRound k dir b 16 = feistelHalves k dir b := by
  rw [halvesAfterRound, List.take_of_length_le (by simp), feistelHalves]

/-- Decryption uses the subkeys from K[15] down (R184). -/
theorem getD_subkeyOrder_dec (k : SubkeySet) {i : Nat} (h : i < 16) :
    (subkeyOrder .dec k).getD i 0 = k.toList.getD (15 - i) 0 := by
  have hlast : 15 - i < 16 := by omega
  simp [subkeyOrder, h, hlast]

/-! ### What the commands answer on one block -/

theorem blockCommand_run {dir : Direction} {s : State} (hk : s.kvalid = true) (hlen : s.din.length = 64) :
    blockCommand dir s =
      { s with
        dout := toBits (blockEngine s.k dir (ofBits 64 s.din))
        l := (feistelHalves s.k dir (ofBits 64 s.din)).1
        r := (feistelHalves s.k dir (ofBits 64 s.din)).2
        err := 0 } := by
  rw [blockCommand, if_pos hk, withOperand_run hlen]
  rfl

theorem blockCommand_badLength {dir : Direction} {s : State} (hk : s.kvalid = true) (hlen : s.din.length ≠ 64) :
    blockCommand dir s = raiseError .invalidBlockLength s := by
  rw [blockCommand, if_pos hk, withOperand_fail hlen]

/-- A stream as long as one unit is its only unit (R65, R66). -/
theorem units_of_length_eq {w : Nat} {stream : Bits} (hw : 0 < w) (h : stream.length = w) :
    units w stream = [stream] := by
  have hcount : unitCount w stream.length = 1 := by simpa [h] using unitCount_mul w 1 hw
  have hunit : unitAt w stream 0 = stream := by simp [unitAt_eq, ← h]
  simp [units, hcount, hunit]

/-- The loop of ECB over one block leaves the engine's result in DOUT (R210, R211). -/
theorem xfLoop_ecb_dout {dir : Direction} {s : State} (hlen : s.din.length = 64) :
    (xfLoop 64 (ecbUnit dir) (xfBegin s)).dout = toBits (blockEngine s.k dir (ofBits 64 s.din)) := by
  rw [xfLoop, xfBegin_din, units_of_length_eq (by decide) hlen]
  rfl

/-! ### The two directions -/

/-- The block command, the order of the subkeys and the ECB command that belong to one direction. -/
structure ServesDirection (dir : Direction) (block : Instr) (order : Nat → Nat) (ecb : Instr) : Prop where
  exec_block : ∀ s, exec block s = .next (blockCommand dir s)
  exec_ecb : ∀ s, exec ecb s = .next (xfChecked true (fun s => xfLoop 64 (ecbUnit dir) (xfBegin s)) s)
  subkey_order : ∀ (k : SubkeySet), ∀ i < 16, (subkeyOrder dir k).getD i 0 = k.toList.getD (order i) 0

theorem servesDirection_enc : ServesDirection .enc .blkEnc (fun i => i) .xfEcbEnc :=
  ⟨fun _ => rfl, fun _ => rfl, fun _ _ _ => rfl⟩

theorem servesDirection_dec : ServesDirection .dec .blkDec (fun i => 15 - i) .xfEcbDec :=
  ⟨fun _ => rfl, fun _ => rfl, fun k _ hi => getD_subkeyOrder_dec k hi⟩

/-- Settles O25: `L i` and `R i` are the pair after `i` rounds, from the split of IP's output to what the commands leave
in L and R; one block is the whole stream of the ECB command. -/
theorem blockCommandsRunSixteenRounds : Obligations.BlockCommandsRunSixteenRounds := by
  unfold Obligations.BlockCommandsRunSixteenRounds
  intro s p hp
  have hdir : ∃ dir, ServesDirection dir p.1 p.2.1 p.2.2 := by
    simp only [List.mem_cons, List.not_mem_nil, or_false] at hp
    obtain rfl | rfl := hp
    · exact ⟨_, servesDirection_enc⟩
    · exact ⟨_, servesDirection_dec⟩
  obtain ⟨dir, hblock, hecb, horder⟩ := hdir
  refine ⟨fun hk hlen => ?run, fun hk => ?noSubkeys, fun hk hlen => ?badLength⟩
  case run =>
    refine ⟨_, _, fun i => (halvesAfterRound s.k dir (ofBits 64 s.din) i).1,
      fun i => (halvesAfterRound s.k dir (ofBits 64 s.din) i).2, hblock s, ?start, fun i hi => ?round, ?result,
      hecb s, ?ecb⟩
    case start => exact feistelSplit_append _
    case round =>
      have hpair := halvesAfterRound_succ s.k dir (ofBits 64 s.din) hi
      rw [horder _ i hi] at hpair
      exact Prod.ext_iff.1 hpair
    case result =>
      rw [blockCommand_run hk hlen, blockEngine, ← halvesAfterRound_sixteen]
      rfl
    case ecb =>
      have haligned : s.din.length % 64 = 0 := by simp [hlen]
      rw [xfChecked_run hk fun _ => haligned, xfLoop_ecb_dout hlen, blockCommand_run hk hlen]
  case noSubkeys => rw [hblock, blockCommand_noSubkeys hk]; rfl
  case badLength => rw [hblock, blockCommand_badLength hk hlen]; rfl

end Sys2Proof.Machine
end

section
/-! Proofs for the mode driver's family (43_mode_driver.md): what each XF command computes, read off the state its loop
leaves, and what PAD, UNPAD and MOV answer. -/

namespace Sys2Proof.Machine

/-! ### Padding and the buffer move -/

@[simp] theorem memRead_zero_length (buf : Bits) : memRead buf 0 buf.length = buf := by
  simp [memRead]

theorem exec_pad_fits {s : State} (h : withinCapacity (s.din.length + padCount s.din.length) = true) :
    exec .pad s = .next
      { s with
        dout := s.din ++ zeros (padCount s.din.length)
        padlen := BitVec.ofNat 7 (padCount s.din.length)
        err := 0 } := by
  rw [← fits_eq_withinCapacity] at h
  rw [exec, execPad, if_pos h, memRead_zero_length]
  rfl

theorem exec_pad_overflow {s : State} (h : withinCapacity (s.din.length + padCount s.din.length) = false) :
    exec .pad s = .next (raiseError .invalidOperandLength s) := by
  rw [← fits_eq_withinCapacity] at h
  exact if_neg (by simp [h])

/-- Settles O43: the capacity test decides between PAD's two answers, and every capacity holds 128 bits. -/
theorem padAppendsZerosAndRecordsHowMany : Obligations.PadAppendsZerosAndRecordsHowMany := by
  unfold Obligations.PadAppendsZerosAndRecordsHowMany
  intro s p
  refine ⟨?answer, ?atLeastOne, ?atMostBlock, ?wholeBlocks, ?padlen,
    fun h => exec_pad_fits (withinCapacity_small h)⟩
  case answer =>
    cases h : withinCapacity (s.din.length + p) with
    | true => exact exec_pad_fits h
    | false => exact exec_pad_overflow h
  case padlen => rw [BitVec.toNat_ofNat, Nat.mod_eq_of_lt (by omega)]
  all_goals omega

theorem exec_unpad_run {s : State} (h : s.padlen.toNat ≤ s.din.length) :
    exec .unpad s = .next { s with dout := s.din.take (s.din.length - s.padlen.toNat), err := 0 } := if_pos h

theorem exec_unpad_fail {s : State} (h : s.din.length < s.padlen.toNat) :
    exec .unpad s = .next (raiseError .invalidPadLength s) := if_neg (Nat.not_le.2 h)

/-- Settles O44: the comparison of PADLEN with the length of DIN decides between UNPAD's two answers. -/
theorem unpadRemovesExactlyPadlenBits : Obligations.UnpadRemovesExactlyPadlenBits := by
  unfold Obligations.UnpadRemovesExactlyPadlenBits
  exact fun s => ⟨exec_unpad_run, exec_unpad_fail⟩

/-- No command but MOV writes DIN (R203). -/
theorem exec_din_of_ne_mov {i : Instr} (hmov : i ≠ .mov) {s t : State} (h : exec i s = .next t) : t.din = s.din := by
  obtain ⟨-, hw⟩ | ⟨kind, -, rfl⟩ := answers_of_exec h
  case inr => rfl
  cases i with
  | mov => exact absurd rfl hmov
  | _ => exact (congrArg State.din hw :)

/-- Settles O45: the writes of every other command leave DIN alone, and DOUT, being within the capacity, can be
loaded. -/
theorem movCopiesTheOutputBuffer : Obligations.MovCopiesTheOutputBuffer := by
  unfold Obligations.MovCopiesTheOutputBuffer
  refine ⟨fun s => rfl, fun i s t h hmov => exec_din_of_ne_mov hmov h, fun s hwf => ?load⟩
  case load => exact if_pos ((Memory.wf_iff s).1 hwf).2

/-! ### The alignment check -/

/-- With KVALID = 1, a command whose row of R271 names `invalid-stream-alignment` fails with it on a stream that is no
whole number of blocks. -/
theorem exec_misaligned {i : Instr} (hi : errorCode .invalidStreamAlignment ∈ raisable i) {s : State}
    (hk : s.kvalid = true) (hlen : s.din.length % 64 ≠ 0) :
    exec i s = .next (raiseError .invalidStreamAlignment s) := by
  cases i with
  | xfEcbEnc | xfEcbDec | xfCbcEnc | xfCbcDec => exact congrArg Host.Outcome.next (xfChecked_misaligned hk hlen)
  | _ => exact absurd hi (by decide)

/-! ### The blocks of a finished loop -/

/-- Block `i` of the output of a mode that works on whole blocks (R210, R212, R213). -/
theorem LoopState.blockAt_dout {next f input : Block → Bits → Block} {dir : Direction} {s t : State} {n : Nat}
    (h : LoopState 64 next (fun cs u => toBits (f cs u)) input dir s n t) {i : Nat} (hi : i < n) :
    blockAt t.dout i = f (chainAt 64 next s.din s.cs i) (unitAt 64 s.din i) := by
  rw [blockAt_eq, h.units i hi, ofBits_toBits]

/-- In a mode that feeds its output back, the chaining value before block `i` is the output block before it (R212). -/
theorem LoopState.chainAt_output {f input : Block → Bits → Block} {dir : Direction} {s t : State} {n : Nat}
    (h : LoopState 64 f (fun cs u => toBits (f cs u)) input dir s n t) {i : Nat} (hi : i ≤ n) :
    chainAt 64 f s.din s.cs i = if i = 0 then s.cs else blockAt t.dout (i - 1) := by
  cases i with
  | zero => rfl
  | succ i => exact (h.blockAt_dout hi).symm

/-- In a mode that feeds its input back, the chaining value before block `i` is the input block before it (R213). -/
theorem chainAt_input (stream : Bits) (start : Block) (i : Nat) :
    chainAt 64 (fun _ u => ofBits 64 u) stream start i = if i = 0 then start else blockAt stream (i - 1) := by
  cases i with
  | zero => rfl
  | succ i => exact (blockAt_eq stream i).symm

/-- Settles O32: the loop's outputs are the engine's results block by block, and one block is the operand of the block
command. -/
theorem ecbTransformsEachBlockAlone : Obligations.EcbTransformsEachBlockAlone := by
  unfold Obligations.EcbTransformsEachBlockAlone
  intro s p hp nu
  have hserves : (∃ order, ServesDirection p.2.1 p.2.2 order p.1) ∧ errorCode .noSubkeys ∈ raisable p.1 ∧
      errorCode .invalidStreamAlignment ∈ raisable p.1 := by
    simp only [List.mem_cons, List.not_mem_nil, or_false] at hp
    obtain rfl | rfl := hp
    · exact ⟨⟨_, servesDirection_enc⟩, by decide, by decide⟩
    · exact ⟨⟨_, servesDirection_dec⟩, by decide, by decide⟩
  obtain ⟨⟨order, hblock, hecb, -⟩, hnoSubkeys, hmisaligned⟩ := hserves
  refine ⟨fun hk hlen => ?run, exec_noSubkeys hnoSubkeys, exec_misaligned hmisaligned⟩
  case run =>
    have hloop := ecb_loop p.2.1 s hlen
    have hdout := hloop.length_done (by decide)
    rw [unitCount_dvd (by decide) hlen] at hloop
    have hexec := hecb s
    rw [xfChecked_run hk fun _ => hlen] at hexec
    refine ⟨_, hexec, hdout, fun i hi => ?blocks, fun hone => ?oneBlock, hloop.idle, fun hpos => ?halves,
      succeed_loop_ecb hloop⟩
    case blocks => rw [blockAt_eq s.din]; exact hloop.blockAt_dout hi
    case oneBlock =>
      have h64 : s.din.length = 64 := by omega
      refine ⟨_, hblock s, ?_⟩
      rw [xfLoop_ecb_dout h64, blockCommand_run hk h64]
    case halves => rw [blockAt_eq]; exact hloop.halves hpos

/-- Settles O33: the chaining value before each block is the output block before it. -/
theorem cbcEncryptChainsOnTheOutput : Obligations.CbcEncryptChainsOnTheOutput := by
  unfold Obligations.CbcEncryptChainsOnTheOutput
  intro s nu
  refine ⟨fun hk hlen => ?run, exec_noSubkeys (by decide), exec_misaligned (by decide)⟩
  case run =>
    have hloop := cbcEnc_loop s hlen
    have hdout := hloop.length_done (by decide)
    rw [unitCount_dvd (by decide) hlen] at hloop
    have hchain : ∀ i ≤ nu, chainAt 64 _ s.din s.ivreg i = if i = 0 then s.ivreg else blockAt _ (i - 1) :=
      fun i hi => hloop.chainAt_output hi
    refine ⟨_, exec_xfCbcEnc hk hlen, hdout, fun i hi => ?blocks, hloop.chain.trans (hchain nu le_rfl), hloop.idle,
      fun hpos => ?halves, succeed_loop_chained hloop⟩
    case blocks =>
      rw [blockAt_eq s.din, succeed_dout, ← hchain i hi.le]
      exact hloop.blockAt_dout hi
    case halves =>
      have hfirst : nu = 1 ↔ nu - 1 = 0 := by omega
      rw [blockAt_eq s.din, succeed_dout, if_congr hfirst rfl rfl, ← Nat.sub_sub nu 1 1,
        ← hchain (nu - 1) (Nat.sub_le _ _)]
      exact hloop.halves hpos

/-- Settles O34: the chaining value before each block is the input block before it. -/
theorem cbcDecryptChainsOnTheInput : Obligations.CbcDecryptChainsOnTheInput := by
  unfold Obligations.CbcDecryptChainsOnTheInput
  intro s nu
  refine ⟨fun hk hlen => ?run, exec_noSubkeys (by decide), exec_misaligned (by decide)⟩
  case run =>
    have hloop := cbcDec_loop s hlen
    have hdout := hloop.length_done (by decide)
    rw [unitCount_dvd (by decide) hlen] at hloop
    refine ⟨_, exec_xfCbcDec hk hlen, hdout, fun i hi => ?blocks, ?chain, hloop.idle, fun hpos => ?halves,
      succeed_loop_chained hloop⟩
    case blocks =>
      refine (hloop.blockAt_dout hi).trans ?_
      rw [chainAt_input, blockAt_eq s.din i]
      rfl
    case chain => exact hloop.chain.trans (chainAt_input _ _ _)
    case halves => rw [blockAt_eq]; exact hloop.halves hpos

/-! ### The keystream modes -/

/-- The register of CFB, encrypting, takes the output segment at its end (R214). -/
theorem cfbEnc_register {s t : State} {input : Block → Bits → Block} {dir : Direction} {n : Nat}
    (h : LoopState 8 (fun cs u => shiftIn cs (streamOut s.k cs u)) (streamOut s.k) input dir (loadChain (xfBegin s))
      n t)
    {i : Nat} (hi : i < n) :
    chainAt 8 (fun cs u => shiftIn cs (streamOut s.k cs u)) s.din s.ivreg (i + 1) =
      shiftIn (chainAt 8 (fun cs u => shiftIn cs (streamOut s.k cs u)) s.din s.ivreg i) (unitAt 8 t.dout i) := by
  rw [h.units i hi]
  rfl

/-- What either direction of CFB leaves: the loop's state, whose register takes the segments of the ciphertext, which is
the output to encrypt and the input to decrypt (R214, R215). -/
theorem exec_cfb {s : State} (hk : s.kvalid = true) {p : Instr × (State → Bits)}
    (hp : p ∈ [(Instr.xfCfbEnc, fun t : State => t.dout), (.xfCfbDec, fun t : State => t.din)]) :
    ∃ (t : State) (next : Block → Bits → Block), exec p.1 s = .next (succeed t) ∧
      LoopState 8 next (streamOut s.k) (fun cs _ => cs) .enc (loadChain (xfBegin s)) (unitCount 8 s.din.length) t ∧
      ∀ i < unitCount 8 s.din.length, chainAt 8 next s.din s.ivreg (i + 1) =
        shiftIn (chainAt 8 next s.din s.ivreg i) (unitAt 8 (p.2 (succeed t)) i) := by
  simp only [List.mem_cons, List.not_mem_nil, or_false] at hp
  obtain rfl | rfl := hp
  · have hloop := cfbEnc_loop s
    exact ⟨_, _, exec_xfCfbEnc hk, hloop, fun i hi => cfbEnc_register hloop hi⟩
  · have hloop := cfbDec_loop s
    have hdin := hloop.unwritten.1
    exact ⟨_, _, exec_xfCfbDec hk, hloop, fun i hi => by simp only [succeed_din, hdin]; rfl⟩

/-- Settles O35: the register is the loop's chaining value, and each update of it is the one R214 and R218 write out. -/
theorem cfbFeedsBackTheCiphertextSegment : Obligations.CfbFeedsBackTheCiphertextSegment := by
  unfold Obligations.CfbFeedsBackTheCiphertextSegment
  intro s p hp nu seg
  have hseg : ∀ b i, seg b i = unitAt 8 b i := fun b i => (unitAt_eq 8 b i).symm
  have hnoSubkeys : errorCode .noSubkeys ∈ raisable p.1 := by
    simp only [List.mem_cons, List.not_mem_nil, or_false] at hp
    obtain rfl | rfl := hp <;> decide
  refine ⟨fun hk => ?run, exec_noSubkeys hnoSubkeys⟩
  case run =>
    obtain ⟨t, next, hexec, hloop, hregister⟩ := exec_cfb hk hp
    have hdout := hloop.length_done (by decide)
    refine ⟨_, chainAt 8 next s.din s.ivreg, hexec, hdout, rfl, fun i hi => ?segment,
      hloop.chain, hloop.idle, hloop.halves, succeed_loop_chained hloop⟩
    case segment =>
      have hlen : (unitAt 8 (p.2 (succeed t)) i).length ≤ 8 := by rw [length_unitAt]; omega
      simp only [hseg]
      exact ⟨hloop.units i hi, by rw [hregister i hi, toBits_shiftIn _ _ hlen]⟩

/-- Unit `j` of the output of a keystream mode (R214, R216, R219). -/
theorem LoopState.take_drop_dout {w : Nat} {k : SubkeySet} {next input : Block → Bits → Block} {dir : Direction}
    {s t : State} {n : Nat} (h : LoopState w next (streamOut k) input dir s n t) {j : Nat} (hj : j < n) :
    (t.dout.drop (w * j)).take w =
      streamOut k (chainAt w next s.din s.cs j) ((s.din.drop (w * j)).take w) := by
  rw [← unitAt_eq, ← unitAt_eq]
  exact h.units j hj

/-- A claim about two commands that answer alike needs a proof for the first of them only. -/
theorem exec_eq_of_mem_pair {a b i : Instr} {s : State} (hsame : exec b s = exec a s) (hi : i ∈ [a, b]) :
    exec i s = exec a s := by
  simp only [List.mem_cons, List.not_mem_nil, or_false] at hi
  obtain rfl | rfl := hi
  · rfl
  · exact hsame

/-- Settles O36: the feedback value is the loop's chaining value, and its successor is the block whose bits are used. -/
theorem ofbEncryptsTheFeedbackBeforeUse : Obligations.OfbEncryptsTheFeedbackBeforeUse := by
  unfold Obligations.OfbEncryptsTheFeedbackBeforeUse
  have hsame : ∀ s, exec .xfOfbDec s = exec .xfOfbEnc s := fun s => rfl
  refine fun s => ⟨hsame s, fun i hi => ?command⟩
  case command =>
    rw [exec_eq_of_mem_pair (hsame s) hi]
    refine ⟨fun hk => ?run, exec_noSubkeys (by decide)⟩
    case run =>
      have hloop := ofb_loop s
      have hdout := hloop.length_done (by decide)
      exact ⟨_, chainAt 64 (fun cs _ => blockEngine s.k .enc cs) s.din s.ivreg, exec_xfOfbEnc hk, hdout, rfl,
        fun j hj => ⟨rfl, hloop.take_drop_dout hj⟩, hloop.chain, hloop.idle, hloop.halves,
        succeed_loop_chained hloop⟩

/-- Settles O37: the loop's chaining value before unit `j` has the counter's closed form. -/
theorem ctrCountsFromIvregModuloTwoToThe64 : Obligations.CtrCountsFromIvregModuloTwoToThe64 := by
  unfold Obligations.CtrCountsFromIvregModuloTwoToThe64
  have hsame : ∀ s, exec .xfCtrDec s = exec .xfCtrEnc s := fun s => rfl
  refine fun s => ⟨hsame s, fun i hi => ?command⟩
  case command =>
    rw [exec_eq_of_mem_pair (hsame s) hi]
    intro nu unit counter
    refine ⟨fun hk => ?run, exec_noSubkeys (by decide)⟩
    case run =>
      have hloop := ctr_loop Config.ctrMod s
      have hdout := hloop.length_done (by decide)
      have hcounter : ∀ j, chainAt 64 _ s.din s.ivreg j = counter j := chainAt_counter s.din s.ivreg
      refine ⟨_, exec_xfCtrEnc hk, hdout, fun j hj => ?unit, hloop.chain.trans (hcounter nu), hloop.idle,
        fun hpos => ?halves, succeed_loop_chained hloop⟩
      case unit =>
        rw [← hcounter j]
        exact hloop.take_drop_dout hj
      case halves =>
        rw [← hcounter (nu - 1)]
        exact hloop.halves hpos

end Sys2Proof.Machine
end

section
/-! Proofs for the exceptions family (60_exceptions.md): what a rejected word and a failed command leave, which commands
look at the length of a stream, and that no command reads ERR. -/

namespace Sys2Proof.Machine

/-! ### Rejected words -/

theorem hostIssue_unsupportedMode {c : Byte} (h : decodeWord c = .unsupportedMode) (s : State) :
    hostIssue c s = .next (raiseError .unsupportedMode s) := by
  simp only [hostIssue, h]

theorem hostIssue_illegalCommand {c : Byte} (h : decodeWord c = .illegalCommand) (s : State) :
    hostIssue c s = .next (raiseError .illegalCommand s) := by
  simp only [hostIssue, h]

/-- R94 on the bits of the word: group XF with a tag that names no mode. -/
theorem decodeWord_eq_unsupportedMode (c : Byte) :
    decodeWord c = .unsupportedMode ↔ c.extractLsb' 5 3 = 3 ∧ 5 ≤ (c.extractLsb' 0 4).toNat :=
  (decodeFields_eq_unsupportedMode (fieldsOf c)).trans (and_congr_left' (BitVec.toNat_inj (y := 3#3)))

/-- Settles O5: the decoder answers one of three ways, and a command's word is the encoder's. -/
theorem rejectedWordsFailByTheWordAlone : Obligations.RejectedWordsFailByTheWordAlone := by
  unfold Obligations.RejectedWordsFailByTheWordAlone
  refine fun s c => ⟨fun hmode => ?unsupported, fun hword hmode => ?illegal⟩
  case unsupported => exact hostIssue_unsupportedMode ((decodeWord_eq_unsupportedMode c).2 hmode) s
  case illegal =>
    cases hd : decodeWord c with
    | command i => exact absurd (decodeAndEncodeAgree.2 c i hd) (hword i)
    | unsupportedMode => exact absurd ((decodeWord_eq_unsupportedMode c).1 hd) hmode
    | illegalCommand => exact hostIssue_illegalCommand hd s

/-! ### The failure entry -/

/-- A command that leaves ERR not 0 took the failure entry (R256). -/
theorem exec_failure {i : Instr} {s t : State} (h : exec i s = .next t) (herr : t.err ≠ 0) :
    ∃ kind, t = raiseError kind s := by
  obtain ⟨hok, -⟩ | ⟨kind, -, hfail⟩ := answers_of_exec h
  · exact absurd hok herr
  · exact ⟨kind, hfail⟩

/-- Settles O53: a word runs its command or takes the failure entry itself. -/
theorem failureChangesErrAndDoutOnly : Obligations.FailureChangesErrAndDoutOnly := by
  unfold Obligations.FailureChangesErrAndDoutOnly
  refine ⟨fun i s t h herr => exec_failure h herr, fun c s t h herr => ?word⟩
  case word =>
    obtain ⟨i, -, hc⟩ | ⟨kind, hc⟩ := hostIssue_cases c s
    · exact exec_failure (hc.symm.trans h) herr
    · cases hc.symm.trans h
      exact ⟨kind, rfl⟩

/-- Settles O10: a step with no transaction to take is idle. -/
theorem idleEngineHoldsItsState : Obligations.IdleEngineHoldsItsState := by
  unfold Obligations.IdleEngineHoldsItsState
  exact fun s => step_of_idle

/-! ### The checks on KVALID and on the length of a stream -/

/-- Settles O29: each of the twelve has `no-subkeys` in its row of R271. -/
theorem noSubkeysComesBeforeTheLengthChecks : Obligations.NoSubkeysComesBeforeTheLengthChecks := by
  unfold Obligations.NoSubkeysComesBeforeTheLengthChecks
  intro s hk i hi
  have hrow : errorCode .noSubkeys ∈ raisable i := by
    revert i
    decide
  exact exec_noSubkeys hrow hk

/-- The ERR of an XF command whose alignment check, if it has one, passes: KVALID alone decides it (R204). -/
theorem xfChecked_err {aligned : Bool} {run : State → State} {s : State}
    (hn : aligned = true → s.din.length % 64 = 0) (hrun : (run s).err = 0) :
    (xfChecked aligned run s).err = if s.kvalid then 0 else 5 := by
  cases hk : s.kvalid with
  | false => rw [xfChecked_noSubkeys hk]; rfl
  | true => rw [xfChecked_run hk hn]; exact hrun

/-- An XF command, told from the block commands by its row of R271, succeeds on every stream its row does not let it
reject, if there are subkeys (R251, R254). -/
theorem exec_xf_err {i : Instr} (hxf : errorCode .noSubkeys ∈ raisable i ∧ errorCode .invalidBlockLength ∉ raisable i)
    {s : State} (hn : errorCode .invalidStreamAlignment ∈ raisable i → s.din.length % 64 = 0) :
    ∃ t, exec i s = .next t ∧ t.err = if s.kvalid then 0 else 5 := by
  cases i with
  | xfEcbEnc | xfEcbDec | xfCbcEnc | xfCbcDec => exact ⟨_, rfl, xfChecked_err (fun _ => hn (by decide)) rfl⟩
  | xfCfbEnc | xfCfbDec | xfOfbEnc | xfOfbDec | xfCtrEnc | xfCtrDec => exact ⟨_, rfl, xfChecked_err nofun rfl⟩
  | _ => exact absurd hxf (by decide)

/-- Settles O30: of the XF commands only those of ECB and CBC have `invalid-stream-alignment` in their row of R271, and
the empty stream is a whole number of blocks. -/
theorem misalignedStreamsFailInEcbAndCbcOnly : Obligations.MisalignedStreamsFailInEcbAndCbcOnly := by
  unfold Obligations.MisalignedStreamsFailInEcbAndCbcOnly
  have hblocks : ∀ i ∈ [Instr.xfEcbEnc, .xfEcbDec, .xfCbcEnc, .xfCbcDec],
      (errorCode .noSubkeys ∈ raisable i ∧ errorCode .invalidBlockLength ∉ raisable i) ∧
        errorCode .invalidStreamAlignment ∈ raisable i := by decide
  have hstreams : ∀ i ∈ [Instr.xfCfbEnc, .xfCfbDec, .xfOfbEnc, .xfOfbDec, .xfCtrEnc, .xfCtrDec],
      (errorCode .noSubkeys ∈ raisable i ∧ errorCode .invalidBlockLength ∉ raisable i) ∧
        errorCode .invalidStreamAlignment ∉ raisable i := by decide
  refine fun s => ⟨fun hlen i hi => ?misaligned, fun i hi => ?anyLength, fun hempty i hi => ?empty⟩
  case misaligned =>
    obtain ⟨⟨hnoSubkeys, -⟩, halignment⟩ := hblocks i hi
    by_cases hk : s.kvalid = true
    · rw [if_pos hk]
      exact exec_misaligned halignment hk hlen
    · rw [if_neg hk]
      exact exec_noSubkeys hnoSubkeys (Bool.eq_false_of_not_eq_true hk)
  case anyLength =>
    obtain ⟨hxf, halignment⟩ := hstreams i hi
    exact exec_xf_err hxf fun h => absurd h halignment
  case empty => exact exec_xf_err (hblocks i hi).1 fun _ => by rw [hempty]; rfl

/-! ### No command reads ERR -/

/-- The state with another value in ERR. -/
def setErr (e : BitVec 4) (s : State) : State := { s with err := e }

theorem succeed_setErr (e : BitVec 4) (s : State) : succeed (setErr e s) = succeed s := rfl

/-- A loop whose body neither reads nor writes ERR carries it along to the end, where it is overwritten (R208). -/
theorem xfLoop_setErr {w : Nat} {body : Bits → State → State} {e : BitVec 4}
    (hbody : ∀ u s, body u (setErr e s) = setErr e (body u s)) (s : State) :
    xfLoop w body (setErr e s) = xfLoop w body s := by
  have hiteration : ∀ s u, xfIteration body (setErr e s) u = setErr e (xfIteration body s u) := by
    intro s u
    rw [xfIteration, hbody]
    rfl
  have hloop : (units w s.din).foldl (xfIteration body) (setErr e s) =
      setErr e ((units w s.din).foldl (xfIteration body) s) := List.foldl_hom (setErr e) hiteration
  exact (congrArg succeed hloop).trans (succeed_setErr e _)

/-- Neither the checks of an XF command nor the entry to its loop read ERR (R204, R207). -/
theorem xfChecked_setErr {w : Nat} {aligned : Bool} {body : Bits → State → State} {start : State → State}
    {e : BitVec 4} {s : State} (hbody : ∀ u r, body u (setErr e r) = setErr e (body u r))
    (hstart : start (setErr e s) = setErr e (start s)) :
    xfChecked aligned (fun r => xfLoop w body (start r)) (setErr e s) =
      xfChecked aligned (fun r => xfLoop w body (start r)) s := by
  obtain ⟨hk, h⟩ | ⟨hk, rfl, hn, h⟩ | ⟨hk, hn, h⟩ := xfChecked_cases aligned (fun r => xfLoop w body (start r)) s <;>
    rw [h]
  · exact xfChecked_noSubkeys hk
  · exact xfChecked_misaligned hk hn
  · rw [xfChecked_run (s := setErr e s) hk hn, hstart]
    exact xfLoop_setErr hbody (start s)

/-- No command reads ERR. Only the XF commands carry it through a loop; every other command overwrites it together with
its writes, whichever way it ends. -/
theorem exec_setErr (i : Instr) (e : BitVec 4) (s : State) : exec i (setErr e s) = exec i s := by
  cases i with
  | xfEcbEnc | xfEcbDec | xfCbcEnc | xfCbcDec | xfCfbEnc | xfCfbDec | xfOfbEnc | xfOfbDec | xfCtrEnc | xfCtrDec =>
    exact congrArg Host.Outcome.next (xfChecked_setErr (fun _ _ => rfl) rfl)
  | _ => rfl

/-- Settles O55: every command overwrites ERR and reads it nowhere. -/
theorem earlierErrorsDoNotMatter : Obligations.EarlierErrorsDoNotMatter := by
  unfold Obligations.EarlierErrorsDoNotMatter
  exact fun i s e => exec_setErr i e s

end Sys2Proof.Machine
end

section
/-! Proofs for the reset and hazards family (70_reset_and_hazards.md): the state after reset, the step that takes a
reset event, and the start of the invariant. -/

namespace Sys2Proof.Machine

/-- A step whose oldest transaction is the reset event takes it and resets the engine (R280). -/
theorem step_reset {s : State} {rest : List HostEvent} (h : s.pending = .reset :: rest) :
    step s = .next (applyReset { s with pending := rest }) := step_of_pending h

/-- Settles O14: the step is the reset of the state with the event taken, which keeps only the host's two lists of it. -/
theorem resetEventOverwritesEveryElement : Obligations.ResetEventOverwritesEveryElement := by
  unfold Obligations.ResetEventOverwritesEveryElement
  exact fun s rest h => step_reset h

/-- Settles O48: the state after reset with these lists is the reset of any state that holds them. -/
theorem resetMeetsTheInvariant : Obligations.ResetMeetsTheInvariant := by
  unfold Obligations.ResetMeetsTheInvariant
  exact fun p q => inv_applyReset { State.reset with pending := p, replies := q }

/-- Settles O13: the subkeys are the zero set, the other elements are the reset values themselves, and STATUS and the
two lengths are read off them. -/
theorem resetLeavesEverythingZeroAndEmpty : Obligations.ResetLeavesEverythingZeroAndEmpty := by
  unfold Obligations.ResetLeavesEverythingZeroAndEmpty
  have hsubkeys : ∀ i : Fin 16, State.reset.k[i] = 0 := zeroSubkeys_get
  have hstatus : status State.reset = 0x00 := by decide
  have hdinLen : readReg 4 State.reset = 0 := rfl
  have hdoutLen : readReg 5 State.reset = 0 := rfl
  exact ⟨hsubkeys, rfl, rfl, rfl, rfl, rfl, rfl, rfl, rfl, rfl, rfl, rfl, rfl, hstatus, hdinLen, hdoutLen⟩

end Sys2Proof.Machine
end

section
/-! Facts the spec derives of the tables, the key schedule and the block engine (R132, R162, R185): what a selection
does to zeros, to ones and to a one-hot value, the special keys, and one direction of the engine after the other. -/

namespace Sys2Proof.Machine

/-! ### Selections by a table -/

/-- Every entry of the table names a bit of a `w`-bit input (R120). -/
def EntriesWithin (w : Nat) (table : List Nat) : Prop := ∀ t ∈ table, 1 ≤ t ∧ t ≤ w

theorem EntriesWithin.getD {w : Nat} {table : List Nat} (h : EntriesWithin w table) {j : Nat} (hj : j < table.length) :
    1 ≤ table.getD j 0 ∧ table.getD j 0 ≤ w := by
  rw [List.getD_eq_getElem _ _ hj]
  exact h _ (List.getElem_mem hj)

theorem permute_zero {table : List Nat} {m w : Nat} (hm : table.length = m) :
    permute table m (0 : BitVec w) = 0 := by
  apply BitVec.eq_of_getMsbD_eq
  intro j hj
  rw [getMsbD_permute hm _ hj]
  simp

theorem permute_allOnes {table : List Nat} {m w : Nat} (hm : table.length = m) (hw : EntriesWithin w table) :
    permute table m (BitVec.allOnes w) = BitVec.allOnes m := by
  apply BitVec.eq_of_getMsbD_eq
  intro j hj
  have hentry := hw.getD (hm.symm ▸ hj)
  have hbit : table.getD j 0 - 1 < w := by omega
  rw [getMsbD_permute hm _ hj, BitVec.getMsbD_allOnes, BitVec.getMsbD_allOnes, decide_eq_true hbit, decide_eq_true hj]

/-- The bit at the 1-based position `p`, counted from the first, is the only one of this value. -/
theorem getMsbD_twoPow_position {w p i : Nat} (hp : 1 ≤ p) (hpw : p ≤ w) (hi : i < w) :
    (BitVec.twoPow w (w - p)).getMsbD i = decide (i + 1 = p) := by
  have hpos : w - 1 - i = w - p ↔ i + 1 = p := by omega
  have hlt : w - p < w := by omega
  simp only [BitVec.getMsbD, BitVec.getLsbD_twoPow, hi, hlt, decide_true, Bool.true_and]
  exact decide_eq_decide.2 (by omega)

/-- A one-hot input gives ones exactly where the table holds its position (R132). -/
theorem getMsbD_permute_twoPow {table : List Nat} {m w : Nat} (hm : table.length = m) (hw : EntriesWithin w table)
    {p : Nat} (hp : 1 ≤ p) (hpw : p ≤ w) {j : Nat} (hj : j < m) :
    (permute table m (BitVec.twoPow w (w - p))).getMsbD j = decide (table.getD j 0 = p) := by
  obtain ⟨hlow, hhigh⟩ := hw.getD (hm.symm ▸ hj)
  rw [getMsbD_permute hm _ hj, getMsbD_twoPow_position hp hpw (by omega), Nat.sub_add_cancel hlow]

/-- R132 (b) and (c) of one table: zeros, ones and the one-hot inputs. -/
theorem permute_constants {table : List Nat} {m w : Nat} (hm : table.length = m) (hw : EntriesWithin w table) :
    permute table m (0 : BitVec w) = 0 ∧
    permute table m (BitVec.allOnes w) = BitVec.allOnes m ∧
    ∀ p, 1 ≤ p → p ≤ w → ∀ j, j < m →
      (permute table m (BitVec.twoPow w (w - p))).getMsbD j = decide (table.getD j 0 = p) :=
  ⟨permute_zero hm, permute_allOnes hm hw, fun _ hp hpw _ hj => getMsbD_permute_twoPow hm hw hp hpw hj⟩

/-- The table that undoes the P-permutation: where each position stands in it (R125). -/
def tablePInverse : List Nat := (List.range 32).map fun p => tableP.idxOf (p + 1) + 1

theorem length_tablePInverse : tablePInverse.length = 32 := by decide

theorem permute_pInverse_p (x : Half) : permute tablePInverse 32 (permute tableP 32 x) = x :=
  permute_permute_of_inverse length_tableP length_tablePInverse (by decide) x

theorem permute_p_pInverse (x : Half) : permute tableP 32 (permute tablePInverse 32 x) = x :=
  permute_permute_of_inverse length_tablePInverse length_tableP (by decide) x

theorem bijective_permute_ip : Function.Bijective (permute tableIp 64 : Block → Block) :=
  Function.bijective_iff_has_inverse.2 ⟨permute tableFp 64, permute_fp_ip, permute_ip_fp⟩

theorem bijective_permute_fp : Function.Bijective (permute tableFp 64 : Block → Block) :=
  Function.bijective_iff_has_inverse.2 ⟨permute tableIp 64, permute_ip_fp, permute_fp_ip⟩

theorem bijective_permute_p : Function.Bijective (permute tableP 32 : Half → Half) :=
  Function.bijective_iff_has_inverse.2 ⟨permute tablePInverse 32, permute_pInverse_p, permute_p_pInverse⟩

theorem sboxLayer_zero : sboxLayer 0 = 0xEFA72C4D#32 := by decide +kernel

theorem sboxLayer_allOnes : sboxLayer (BitVec.allOnes 48) = 0xD9CE3DCB#32 := by decide +kernel

theorem entriesWithin_tableIp : EntriesWithin 64 tableIp := by unfold EntriesWithin; decide
theorem entriesWithin_tableFp : EntriesWithin 64 tableFp := by unfold EntriesWithin; decide
theorem entriesWithin_tableE : EntriesWithin 32 tableE := by unfold EntriesWithin; decide
theorem entriesWithin_tableP : EntriesWithin 32 tableP := by unfold EntriesWithin; decide
theorem entriesWithin_tablePc1 : EntriesWithin 64 tablePc1 := by unfold EntriesWithin; decide
theorem entriesWithin_tablePc2 : EntriesWithin 56 tablePc2 := by unfold EntriesWithin; decide

/-- Settles O18: each of IP, FP and P has an inverse selection, (b) and (c) hold of every table whose entries name bits
of its input, and the S-box layer is run on its two corners. -/
theorem tableFactsOfTheRom : Obligations.TableFactsOfTheRom := by
  unfold Obligations.TableFactsOfTheRom
  refine ⟨⟨bijective_permute_ip.existsUnique, bijective_permute_fp.existsUnique, bijective_permute_p.existsUnique⟩,
    ?constants, sboxLayer_zero, sboxLayer_allOnes⟩
  case constants =>
    simp only [List.forall_mem_cons]
    exact ⟨permute_constants length_tableIp entriesWithin_tableIp,
      permute_constants length_tableFp entriesWithin_tableFp,
      permute_constants length_tableE entriesWithin_tableE,
      permute_constants length_tableP entriesWithin_tableP,
      permute_constants length_tablePc1 entriesWithin_tablePc1,
      permute_constants length_tablePc2 entriesWithin_tablePc2, List.forall_mem_nil _⟩

/-! ### The key schedule's special keys -/

theorem subkeysOf_congr {key key' : Block} (h : ∀ p < 64, p % 8 ≠ 7 → key.getMsbD p = key'.getMsbD p) :
    subkeysOf key = subkeysOf key' := by
  rw [subkeysOf, subkeysOf, keySchedule, keySchedule, scheduleStart_congr h]

theorem rotl_zero {w : Nat} (n : Nat) : rotl (0 : BitVec w) n = 0 := by
  apply BitVec.eq_of_getMsbD_eq
  intro i _
  simp [rotl, BitVec.getMsbD_rotateLeft]

theorem rotl_allOnes {w : Nat} (n : Nat) : rotl (BitVec.allOnes w) n = BitVec.allOnes w := by
  apply BitVec.eq_of_getMsbD_eq
  intro i hi
  have hmod : (n + i) % w < w := Nat.mod_lt _ (by omega)
  simp [rotl, BitVec.getMsbD_rotateLeft, hi, hmod]

/-- Halves that no rotation changes give the same subkey in every round (R162). -/
theorem subkeysOf_get_of_rotl_fixed {key : Block} {h : KeyHalf} (hstart : scheduleStart key = (h, h))
    (hfixed : ∀ n, rotl h n = h) (i : Fin 16) : (subkeysOf key)[i] = permute tablePc2 48 (h ++ h) := by
  simp only [subkeysOf_get, hstart, hfixed]

theorem scheduleStart_zero : scheduleStart 0 = (0, 0) := by
  simp only [scheduleStart, permute_zero length_tablePc1]
  rfl

theorem scheduleStart_allOnes : scheduleStart (BitVec.allOnes 64) = (BitVec.allOnes 28, BitVec.allOnes 28) := by
  simp only [scheduleStart, permute_allOnes length_tablePc1 entriesWithin_tablePc1]
  decide

theorem subkeysOf_zero (i : Fin 16) : (subkeysOf 0)[i] = 0 :=
  (subkeysOf_get_of_rotl_fixed scheduleStart_zero rotl_zero i).trans (permute_zero length_tablePc2)

theorem subkeysOf_allOnes (i : Fin 16) : (subkeysOf (BitVec.allOnes 64))[i] = BitVec.allOnes 48 := by
  have hjoin : BitVec.allOnes 28 ++ BitVec.allOnes 28 = BitVec.allOnes 56 := by decide
  rw [subkeysOf_get_of_rotl_fixed scheduleStart_allOnes rotl_allOnes, hjoin]
  exact permute_allOnes length_tablePc2 entriesWithin_tablePc2

/-- Settles O22: a key enters the schedule by its start alone, which leaves out the positions 8, 16, ..., 64; the
all-zero and all-one halves are fixed by every rotation, and the other two special keys differ from those at these
positions only. -/
theorem keyScheduleProperties : Obligations.KeyScheduleProperties := by
  unfold Obligations.KeyScheduleProperties
  refine ⟨fun key key' => subkeysOf_congr, fun s hlen => ⟨_, exec_keygen hlen, rfl, rfl⟩, fun key => ?fullTurn,
    fun i => ⟨subkeysOf_zero i, ?ones01, subkeysOf_allOnes i, ?onesFE⟩⟩
  case fullTurn => rw [keySchedule_halves, scheduleStart_append]
  case ones01 =>
    rw [subkeysOf_congr (key' := 0) (by decide)]
    exact subkeysOf_zero i
  case onesFE =>
    rw [subkeysOf_congr (key' := BitVec.allOnes 64) (by decide)]
    exact subkeysOf_allOnes i

/-! ### The block engine undone -/

/-- A direction that uses the subkeys in the reverse order undoes the other (R185). -/
theorem blockEngine_undo {k : SubkeySet} {dir dir' : Direction}
    (horder : subkeyOrder dir' k = (subkeyOrder dir k).reverse) (b : Block) :
    blockEngine k dir' (blockEngine k dir b) = b := by
  rw [blockEngine, blockEngine, feistelHalves, feistelSplit_join, horder, feistelHalves, foldl_feistelRound_undo,
    feistelJoin_swap_split]

theorem blockEngine_dec_enc (k : SubkeySet) (b : Block) : blockEngine k .dec (blockEngine k .enc b) = b :=
  blockEngine_undo rfl b

theorem blockEngine_enc_dec (k : SubkeySet) (b : Block) : blockEngine k .enc (blockEngine k .dec b) = b :=
  blockEngine_undo (List.reverse_reverse _).symm b

theorem blockEngine_enc_injective (k : SubkeySet) : Function.Injective (blockEngine k .enc) :=
  Function.LeftInverse.injective (blockEngine_dec_enc k)

/-- Settles O26: each direction uses the subkeys in the reverse order of the other. -/
theorem blockEngineUndoesItself : Obligations.BlockEngineUndoesItself := by
  unfold Obligations.BlockEngineUndoesItself
  exact fun k b => ⟨blockEngine_dec_enc k b, blockEngine_enc_dec k b⟩

/-- MOV in a run: DIN takes DOUT (R203). -/
theorem run_mov {n : Nat} {s : State} {rest : List HostEvent} (hp : s.pending = .issue 0xA0 :: rest) :
    core.run (n + 1) s = core.run n { s with pending := rest, din := s.dout, err := 0 } :=
  run_issue hp (decodeWord_encode .mov) rfl

/-- What a block command on one block leaves, but for L and R (R186, R187). -/
theorem blockCommand_answers (dir : Direction) {s : State} (hk : s.kvalid = true) (hlen : s.din.length = 64) :
    ∃ t, blockCommand dir s = t ∧ t.dout = toBits (blockEngine s.k dir (ofBits 64 s.din)) ∧ t.err = 0 ∧ t.k = s.k ∧
      t.kvalid = true ∧ t.pending = s.pending :=
  ⟨_, blockCommand_run hk hlen, rfl, rfl, rfl, hk, rfl⟩

/-- A block through one block command, MOV and the other one is the block in DIN at the start. -/
theorem run_blockCommand_undone {c c' : Byte} {i i' : Instr} {dir dir' : Direction} {s : State}
    {rest : List HostEvent} (hi : decodeWord c = .command i) (hexec : ∀ s, exec i s = .next (blockCommand dir s))
    (hi' : decodeWord c' = .command i') (hexec' : ∀ s, exec i' s = .next (blockCommand dir' s))
    (hundo : ∀ b, blockEngine s.k dir' (blockEngine s.k dir b) = b) (hk : s.kvalid = true) (hlen : s.din.length = 64)
    (hpending : s.pending = .issue c :: .issue 0xA0 :: .issue c' :: rest) :
    ∃ t, core.run 3 s = .next t ∧ t.dout = s.din ∧ t.err = 0 ∧ t.k = s.k ∧ t.pending = rest := by
  obtain ⟨t, ht, htdout, -, htk, htvalid, htpending⟩ :=
    blockCommand_answers dir (s := { s with pending := .issue 0xA0 :: .issue c' :: rest }) hk hlen
  have htlen : t.dout.length = 64 := by rw [htdout, length_toBits]
  obtain ⟨u, hu, hudout, huerr, huk, -, hupending⟩ :=
    blockCommand_answers dir' (s := { t with pending := rest, din := t.dout, err := 0 }) htvalid htlen
  have hfirst := (hexec _).trans (congrArg Host.Outcome.next ht)
  have hsecond := (hexec' _).trans (congrArg Host.Outcome.next hu)
  refine ⟨u, ?run, ?dout, huerr, huk.trans htk, hupending⟩
  case run => rw [run_issue hpending hi hfirst, run_mov htpending, run_issue rfl hi' hsecond]; rfl
  case dout => rw [hudout, htdout, ofBits_toBits, htk, hundo, toBits_ofBits hlen]

/-- Settles O27: each order of the two commands is the engine undone. -/
theorem blockCommandsUndoEachOther : Obligations.BlockCommandsUndoEachOther := by
  unfold Obligations.BlockCommandsUndoEachOther
  intro s rest hk hlen hpending
  have henc := decodeWord_encode .blkEnc
  have hdec := decodeWord_encode .blkDec
  obtain hpending | hpending := hpending
  · exact run_blockCommand_undone henc (fun _ => rfl) hdec (fun _ => rfl) (blockEngine_dec_enc s.k) hk hlen hpending
  · exact run_blockCommand_undone hdec (fun _ => rfl) henc (fun _ => rfl) (blockEngine_enc_dec s.k) hk hlen hpending

/-! ### The known-answer test -/

/-- The final pair of the source's trace (R188). -/
theorem feistelHalves_knownAnswer : feistelHalves (subkeysOf 0x133457799BBCDFF1#64) .enc 0x0123456789ABCDEF#64 =
    (0x43423234#32, 0x0A4CD995#32) := by decide +kernel

theorem feistelJoin_knownAnswer : feistelJoin (0x43423234#32, 0x0A4CD995#32) = 0x85E813540F0AB405#64 := by
  decide +kernel

/-- Settles O28: the two loads and the two commands are run by their rules; the sixteen rounds are computed. -/
theorem knownAnswerTest : Obligations.KnownAnswerTest := by
  unfold Obligations.KnownAnswerTest
  have hload : ∀ x : Block, withinCapacity (toBits x).length = true := fun x =>
    withinCapacity_small (by rw [length_toBits]; decide)
  rw [run_load rfl (hload _), run_issue rfl (decodeWord_encode .keygen) (exec_keygen (length_toBits _)),
    run_load rfl (hload _), run_issue rfl (decodeWord_encode .blkEnc)
      (congrArg Host.Outcome.next (blockCommand_run rfl (length_toBits _)))]
  refine ⟨_, rfl, ?_⟩
  simp only [ofBits_toBits, blockEngine, feistelHalves_knownAnswer, feistelJoin_knownAnswer, and_self]

end Sys2Proof.Machine
end

section
/-! The hidden registers (10_state.md R38): no command, transaction or step lets C, D, L, R, CS or UIDX reach an element
the host can see. -/

namespace Sys2Proof.Machine

theorem SameVisible.sameOperands {s s' : State} (h : SameVisible s s') (i : Instr) : SameOperands i s s' := by
  obtain ⟨hdin, hdout, hk, hkvalid, hivreg, hpadlen, -, -, -⟩ := (sameVisible_iff s s').1 h
  cases i with
  | permIp | permFp | permE | permP | permPc1 | permPc2 | sbox | keygen | pad => exact hdin
  | keyclr => trivial
  | blkEnc | blkDec | xfEcbEnc | xfEcbDec => exact ⟨hdin, hk, hkvalid⟩
  | xfCbcEnc | xfCfbEnc | xfOfbEnc | xfCtrEnc | xfCbcDec | xfCfbDec | xfOfbDec | xfCtrDec =>
    exact ⟨hdin, hk, hkvalid, hivreg⟩
  | unpad => exact ⟨hdin, hpadlen⟩
  | mov => exact hdout

/-- States that differ in the hidden registers alone are one state with two settings of them. -/
theorem SameVisible.exists_eq {s s' : State} (h : SameVisible s s') :
    ∃ c d l r cs uidx, s' = { s with c := c, d := d, l := l, r := r, cs := cs, uidx := uidx } :=
  ⟨_, _, _, _, _, _, h⟩

/-- A command that succeeds writes, of what the host sees, only elements that are functions of what it reads; so two
runs of it from such states leave such states. -/
theorem exec_sameVisible_of_success {i : Instr} {s s' t t' : State} (hs : SameVisible s s')
    (h : exec i s = .next t) (h' : exec i s' = .next t') (herr : t.err = 0) : SameVisible t t' := by
  obtain ⟨herr', hdout, hkeygen, hkeyclr, hmov, hpad⟩ :=
    resultsDependOnTheReadElementsOnly i s s' t t' (hs.sameOperands i) h h'
  have hw : WritesOnly i s t := successWritesOnlyTheNamedElements i s t h herr
  have hw' : WritesOnly i s' t' := successWritesOnlyTheNamedElements i s' t' h' (herr'.symm.trans herr)
  obtain ⟨c, d, l, r, cs, uidx, rfl⟩ := hs.exists_eq
  cases i with
  | keygen =>
    obtain ⟨hk, hkvalid, -⟩ := hkeygen rfl herr
    rw [(hw : t = _), (hw' : t' = _), hk, hkvalid]
    rfl
  | keyclr =>
    obtain ⟨hk, hkvalid, -⟩ := hkeyclr rfl
    rw [(hw : t = _), (hw' : t' = _), hk, hkvalid]
    rfl
  | mov =>
    rw [(hw : t = _), (hw' : t' = _), hmov rfl]
    rfl
  | pad =>
    rw [(hw : t = _), (hw' : t' = _), hdout (by decide) (by decide) (by decide), hpad rfl herr]
    rfl
  | _ =>
    rw [(hw : t = _), (hw' : t' = _), hdout (by decide) (by decide) (by decide)]
    rfl

/-- The failure entry knows its kind by the code alone (R256). -/
theorem raiseError_sameVisible {kind kind' : ErrorKind} (hcode : errorCode kind = errorCode kind') {s s' : State}
    (hs : SameVisible s s') : SameVisible (raiseError kind s) (raiseError kind' s') := by
  obtain ⟨c, d, l, r, cs, uidx, rfl⟩ := hs.exists_eq
  rw [raiseError, raiseError, hcode]
  rfl

/-- A command that fails takes the failure entry, with one code in both runs. -/
theorem exec_sameVisible {i : Instr} {s s' t t' : State} (hs : SameVisible s s')
    (h : exec i s = .next t) (h' : exec i s' = .next t') : SameVisible t t' := by
  have herr : t.err = t'.err := exec_sameErr (hs.sameOperands i) h h'
  by_cases hok : t.err = 0
  · exact exec_sameVisible_of_success hs h h' hok
  · obtain ⟨kind, rfl⟩ := exec_failure h hok
    obtain ⟨kind', rfl⟩ := exec_failure h' (herr ▸ hok)
    exact raiseError_sameVisible herr hs

theorem hostIssue_sameOutcome (c : Byte) {s s' : State} (hs : SameVisible s s') :
    SameOutcome (hostIssue c s) (hostIssue c s') := by
  cases hd : decodeWord c with
  | command i =>
    obtain ⟨t, ht, -⟩ := exec_answers i s
    obtain ⟨t', ht', -⟩ := exec_answers i s'
    rw [hostIssue_command hd, hostIssue_command hd, ht, ht']
    exact exec_sameVisible hs ht ht'
  | unsupportedMode =>
    rw [hostIssue_unsupportedMode hd, hostIssue_unsupportedMode hd]
    exact raiseError_sameVisible rfl hs
  | illegalCommand =>
    rw [hostIssue_illegalCommand hd, hostIssue_illegalCommand hd]
    exact raiseError_sameVisible rfl hs

theorem hostWriteReg_sameOutcome (n v : Nat) {s s' : State} (hs : SameVisible s s') :
    SameOutcome (hostWriteReg n v s) (hostWriteReg n v s') := by
  have hissue := hostIssue_sameOutcome (BitVec.ofNat 8 v) hs
  obtain ⟨c, d, l, r, cs, uidx, rfl⟩ := hs.exists_eq
  unfold hostWriteReg
  split
  · exact hissue
  · split
    · split <;> rfl
    · split <;> rfl

/-- No transaction shows or acts on a hidden register. -/
theorem transact_sameOutcome (e : HostEvent) {s s' : State} (hs : SameVisible s s') :
    SameOutcome (transact e s) (transact e s') := by
  cases e with
  | issue c => exact hostIssue_sameOutcome c hs
  | writeReg n v => exact hostWriteReg_sameOutcome n v hs
  | load v =>
    obtain ⟨c, d, l, r, cs, uidx, rfl⟩ := hs.exists_eq
    simp only [transact, hostLoad]
    split <;> rfl
  | read | readReg | reset =>
    obtain ⟨c, d, l, r, cs, uidx, rfl⟩ := hs.exists_eq
    rfl

theorem step_sameOutcome {s s' : State} (hs : SameVisible s s') : SameOutcome (step s) (step s') := by
  have hpending : s'.pending = s.pending := (congrArg State.pending hs :)
  cases hp : s.pending with
  | nil =>
    rw [step_of_idle hp, step_of_idle (hpending.trans hp)]
    exact hs
  | cons e rest =>
    rw [step_of_pending hp, step_of_pending (hpending.trans hp)]
    apply transact_sameOutcome
    obtain ⟨c, d, l, r, cs, uidx, rfl⟩ := hs.exists_eq
    rfl

/-- Settles O49: a step is idle or a transaction, and only the issue of a command acts on the hidden registers, where
what a command writes and the host sees is a function of the visible elements it reads; STATUS and the registers are
made of visible elements. -/
theorem hiddenRegistersCannotBeObserved : Obligations.HiddenRegistersCannotBeObserved := by
  unfold Obligations.HiddenRegistersCannotBeObserved
  intro s t h
  refine ⟨step_sameOutcome h, ?registers⟩
  case registers =>
    obtain ⟨c, d, l, r, cs, uidx, rfl⟩ := h.exists_eq
    exact ⟨rfl, fun _ => rfl⟩

end Sys2Proof.Machine
end

section
/-! What the issue of any word ends with (60_exceptions.md R271, R296), what each command does straight after reset
(70_reset_and_hazards.md R283), and padding undone (43_mode_driver.md R222). -/

namespace Sys2Proof.Machine

/-- Issuing a word leaves 0 or a produced code in ERR (R250). -/
theorem hostIssue_err_le {c : Byte} {s t : State} (h : hostIssue c s = .next t) : t.err.toNat ≤ 8 := by
  obtain ⟨i, -, hc⟩ | ⟨kind, hc⟩ := hostIssue_cases c s
  · exact exec_err_le (hc.symm.trans h)
  · cases hc.symm.trans h
    exact errorCode_toNat_le kind

/-- Settles O50: a word runs its command or takes the failure entry, and both go on with a produced code. -/
theorem everyCommandWordCompletes : Obligations.EveryCommandWordCompletes := by
  unfold Obligations.EveryCommandWordCompletes
  intro c s
  obtain ⟨t, ht, hlists⟩ := hostIssue_completes c s
  exact ⟨t, ht, hostIssue_err_le ht, hlists⟩

/-- Settles O52: a command succeeds, or takes the failure entry with a code of its row. -/
theorem commandsRaiseOnlyTheirOwnErrors : Obligations.CommandsRaiseOnlyTheirOwnErrors := by
  unfold Obligations.CommandsRaiseOnlyTheirOwnErrors
  intro i s
  obtain ⟨t, ht, ⟨hok, -⟩ | ⟨kind, hrow, rfl⟩⟩ := exec_answers i s
  · exact ⟨t, ht, .inl hok⟩
  · exact ⟨_, ht, .inr hrow⟩

/-- On an empty operand every command that selects by a table or by the S-boxes fails with `invalid-operand-length`. -/
theorem exec_permutation_of_empty {i : Instr}
    (hi : i ∈ [Instr.permIp, .permFp, .permE, .permP, .permPc1, .permPc2, .sbox]) {s : State} (hdin : s.din = []) :
    exec i s = .next (raiseError .invalidOperandLength s) := by
  have hlen : ∀ w, w ≠ 0 → s.din.length ≠ w := fun w hw => by rw [hdin]; exact hw.symm
  cases i with
  | permIp | permFp | permE | permP | permPc1 | permPc2 | sbox =>
    exact congrArg Host.Outcome.next (withOperand_fail (hlen _ (by decide)))
  | _ => exact absurd hi (by decide)

/-- Settles O15: the operand is empty, PADLEN is 0 and no subkeys are set, so each command takes one of its own two
ways. -/
theorem commandsStraightAfterReset : Obligations.CommandsStraightAfterReset := by
  unfold Obligations.CommandsStraightAfterReset
  intro p q v z
  have hsubkeys : ∀ i ∈ [Instr.blkEnc, .blkDec, .xfEcbEnc, .xfEcbDec, .xfCbcEnc, .xfCbcDec, .xfCfbEnc, .xfCfbDec,
      .xfOfbEnc, .xfOfbDec, .xfCtrEnc, .xfCtrDec], errorCode .noSubkeys ∈ raisable i := by decide
  have hpad : withinCapacity (0 + padCount 0) = true := withinCapacity_small (by decide)
  have hkey : (0 : Nat) ≠ 64 := by decide
  exact ⟨rfl, rfl, exec_pad_fits hpad, exec_unpad_run (Nat.le_refl 0), exec_keygen_fail hkey,
    fun i hi => exec_permutation_of_empty hi rfl, fun i hi => exec_noSubkeys (hsubkeys i hi) rfl⟩

/-- PADLEN holds every count PAD can record (R201). -/
theorem toNat_padCount (n : Nat) : (BitVec.ofNat 7 (padCount n)).toNat = padCount n := by
  have hle : padCount n ≤ 64 := Nat.sub_le _ _
  rw [BitVec.toNat_ofNat, Nat.mod_eq_of_lt (by omega)]

/-- UNPAD removes what PAD appended (R202). -/
theorem exec_unpad_of_padded {s : State} {X : Bits} (hdin : s.din = X ++ zeros (padCount X.length))
    (hpadlen : s.padlen = BitVec.ofNat 7 (padCount X.length)) :
    exec .unpad s = .next { s with dout := X, err := 0 } := by
  have hlen : s.din.length = X.length + padCount X.length := by simp [hdin]
  have hcount : s.padlen.toNat = padCount X.length := by rw [hpadlen, toNat_padCount]
  rw [exec_unpad_run (by omega), hlen, hcount, Nat.add_sub_cancel, hdin, List.take_left]

/-- Settles O46: PAD's result fits because MAXBITS is a whole number of blocks, and UNPAD removes as many bits as PAD
recorded. -/
theorem unpadUndoesPad : Obligations.UnpadUndoesPad := by
  unfold Obligations.UnpadUndoesPad
  intro s X rest hX hpending
  have hload : withinCapacity X.length = true := withinCapacity_of_le (Nat.le_succ _) hX
  rw [run_load hpending hload, run_issue rfl (decodeWord_encode .pad) (exec_pad_fits (withinCapacity_pad hX)),
    run_mov rfl, run_issue rfl (decodeWord_encode .unpad) (exec_unpad_of_padded rfl rfl)]
  exact ⟨_, rfl, rfl, rfl, rfl⟩

end Sys2Proof.Machine
end

section
/-! What two or three XF commands have to do with each other (43_mode_driver.md R206, R221, R223;
70_reset_and_hazards.md R289, R290): each command as the loop of its mode, one loop undoing another, a stream cut in
two, another IVREG. -/

namespace Sys2Proof.Machine

/-! ### Each XF command is the loop of its mode -/

/-- A mode of the driver, in both directions: its two commands, whether it asks for whole units and loads CS from IVREG,
the width of a unit, and, per direction, the chaining and output functions of one unit under a subkey set and the
direction it runs the engine in (R204 to R220). -/
structure Mode where
  command : Direction → Instr
  aligned : Bool
  chained : Bool
  width : Nat
  next : Direction → SubkeySet → Block → Bits → Block
  out : Direction → SubkeySet → Block → Bits → Bits
  engine : Direction → Direction

/-- The stream passes the mode's alignment check (R204). -/
def Mode.Accepts (m : Mode) (stream : Bits) : Prop := m.aligned = true → stream.length % m.width = 0

/-- The state the mode's loop starts from (R207). -/
def Mode.start (m : Mode) (s : State) : State := if m.chained then loadChain (xfBegin s) else xfBegin s

@[simp] theorem Mode.start_din (m : Mode) (s : State) : (m.start s).din = s.din := by
  unfold Mode.start
  split <;> rfl

theorem Mode.start_cs (m : Mode) (s : State) : (m.start s).cs = if m.chained then s.ivreg else s.cs := by
  unfold Mode.start
  split <;> rfl

/-- The state `t` is what the mode's loop leaves of the stream in `s`, before ERR is cleared (R208). -/
def Mode.Finishes (m : Mode) (dir : Direction) (s t : State) : Prop :=
  ∃ input, LoopState m.width (m.next dir s.k) (m.out dir s.k) input (m.engine dir) (m.start s)
    (unitCount m.width (m.start s).din.length) t

/-- With subkeys and a stream that passes the check, the mode's commands run its loop to the end. -/
def Mode.Runs (m : Mode) : Prop :=
  0 < m.width ∧ ∀ (dir : Direction) (s : State), s.kvalid = true → m.Accepts s.din →
    ∃ t, exec (m.command dir) s = .next (succeed t) ∧ m.Finishes dir s t

def Mode.ecb : Mode where
  command
    | .enc => .xfEcbEnc
    | .dec => .xfEcbDec
  aligned := true
  chained := false
  width := 64
  next _ _ cs _ := cs
  out dir k _ u := toBits (blockEngine k dir (ofBits 64 u))
  engine dir := dir

def Mode.cbc : Mode where
  command
    | .enc => .xfCbcEnc
    | .dec => .xfCbcDec
  aligned := true
  chained := true
  width := 64
  next
    | .enc, k, cs, u => blockEngine k .enc (ofBits 64 u ^^^ cs)
    | .dec, _, _, u => ofBits 64 u
  out
    | .enc, k, cs, u => toBits (blockEngine k .enc (ofBits 64 u ^^^ cs))
    | .dec, k, cs, u => toBits (blockEngine k .dec (ofBits 64 u) ^^^ cs)
  engine dir := dir

def Mode.cfb : Mode where
  command
    | .enc => .xfCfbEnc
    | .dec => .xfCfbDec
  aligned := false
  chained := true
  width := 8
  next
    | .enc, k, cs, u => shiftIn cs (streamOut k cs u)
    | .dec, _, cs, u => shiftIn cs u
  out _ k cs u := streamOut k cs u
  engine _ := .enc

def Mode.ofb : Mode where
  command
    | .enc => .xfOfbEnc
    | .dec => .xfOfbDec
  aligned := false
  chained := true
  width := 64
  next _ k cs _ := blockEngine k .enc cs
  out _ k cs u := streamOut k cs u
  engine _ := .enc

def Mode.ctr : Mode where
  command
    | .enc => .xfCtrEnc
    | .dec => .xfCtrDec
  aligned := false
  chained := true
  width := 64
  next _ _ cs _ := nextCounter Config.ctrMod cs
  out _ k cs u := streamOut k cs u
  engine _ := .enc

theorem Mode.ecb_runs : Mode.ecb.Runs := by
  refine ⟨by decide, fun dir s hk hn => ?_⟩
  cases dir with
  | enc => exact ⟨_, exec_xfEcbEnc hk (hn rfl), _, ecb_loop .enc s (hn rfl)⟩
  | dec => exact ⟨_, exec_xfEcbDec hk (hn rfl), _, ecb_loop .dec s (hn rfl)⟩

theorem Mode.cbc_runs : Mode.cbc.Runs := by
  refine ⟨by decide, fun dir s hk hn => ?_⟩
  cases dir with
  | enc => exact ⟨_, exec_xfCbcEnc hk (hn rfl), _, cbcEnc_loop s (hn rfl)⟩
  | dec => exact ⟨_, exec_xfCbcDec hk (hn rfl), _, cbcDec_loop s (hn rfl)⟩

theorem Mode.cfb_runs : Mode.cfb.Runs := by
  refine ⟨by decide, fun dir s hk _ => ?_⟩
  cases dir with
  | enc => exact ⟨_, exec_xfCfbEnc hk, _, cfbEnc_loop s⟩
  | dec => exact ⟨_, exec_xfCfbDec hk, _, cfbDec_loop s⟩

theorem Mode.ofb_runs : Mode.ofb.Runs := by
  refine ⟨by decide, fun dir s hk _ => ?_⟩
  cases dir with
  | enc => exact ⟨_, exec_xfOfbEnc hk, _, ofb_loop s⟩
  | dec => exact ⟨_, exec_xfOfbDec hk, _, ofb_loop s⟩

theorem Mode.ctr_runs : Mode.ctr.Runs := by
  refine ⟨by decide, fun dir s hk _ => ?_⟩
  cases dir with
  | enc => exact ⟨_, exec_xfCtrEnc hk, _, ctr_loop Config.ctrMod s⟩
  | dec => exact ⟨_, exec_xfCtrDec hk, _, ctr_loop Config.ctrMod s⟩

/-! ### What a mode's loop leaves -/

theorem Mode.Finishes.length_dout {m : Mode} {dir : Direction} {s t : State} (h : m.Finishes dir s t)
    (hw : 0 < m.width) : t.dout.length = s.din.length := by
  obtain ⟨input, hloop⟩ := h
  rw [hloop.length_done hw, m.start_din]

theorem Mode.Finishes.unwritten {m : Mode} {dir : Direction} {s t : State} (h : m.Finishes dir s t) :
    t.k = s.k ∧ t.kvalid = s.kvalid ∧ t.ivreg = s.ivreg ∧ t.pending = s.pending := by
  obtain ⟨input, hloop⟩ := h
  obtain ⟨-, hk, hkvalid, hivreg, hpending, -⟩ := hloop.unwritten
  rw [hk, hkvalid, hivreg, hpending]
  unfold Mode.start
  split <;> exact ⟨rfl, rfl, rfl, rfl⟩

/-- On the empty stream the loop has no unit, and what a command leaves is its entry (R206). -/
theorem Mode.Runs.exec_empty {m : Mode} (hm : m.Runs) (dir : Direction) {s : State} (hk : s.kvalid = true)
    (hs : s.din = []) :
    exec (m.command dir) s =
      .next { s with dout := [], uidx := 0, cs := if m.chained then s.ivreg else s.cs, err := 0 } := by
  obtain ⟨hw, hrun⟩ := hm
  obtain ⟨t, ht, hdone⟩ := hrun dir s hk fun _ => by rw [hs]; exact Nat.zero_mod _
  have hdout : t.dout = [] := List.eq_nil_of_length_eq_zero (by rw [hdone.length_dout hw, hs, List.length_nil])
  obtain ⟨input, hloop⟩ := hdone
  have hcount : unitCount m.width (m.start s).din.length = 0 := by
    rw [m.start_din, hs]
    exact unitCount_mul m.width 0 hw
  rw [hcount] at hloop
  obtain ⟨hl, hr⟩ := hloop.idle rfl
  rw [ht, hloop.frame, hdout, hloop.chain, hl, hr, chainAt, m.start_cs]
  unfold Mode.start
  split <;> rfl

/-! ### The empty stream -/

/-- Settles O31: each of the ten commands is a direction of a mode, and ECB is the mode that does not load CS. -/
theorem emptyStreamSucceedsInEveryMode : Obligations.EmptyStreamSucceedsInEveryMode := by
  unfold Obligations.EmptyStreamSucceedsInEveryMode
  intro s hk hs
  simp only [List.forall_mem_cons]
  exact ⟨⟨Mode.ecb_runs.exec_empty .enc hk hs, Mode.ecb_runs.exec_empty .dec hk hs, List.forall_mem_nil _⟩,
    Mode.cbc_runs.exec_empty .enc hk hs, Mode.cbc_runs.exec_empty .dec hk hs,
    Mode.cfb_runs.exec_empty .enc hk hs, Mode.cfb_runs.exec_empty .dec hk hs,
    Mode.ofb_runs.exec_empty .enc hk hs, Mode.ofb_runs.exec_empty .dec hk hs,
    Mode.ctr_runs.exec_empty .enc hk hs, Mode.ctr_runs.exec_empty .dec hk hs, List.forall_mem_nil _⟩

/-! ### The round trip -/

/-- Unit by unit, decryption gives back what encryption was given, and both carry the same chaining value; a unit is
whole in a mode that asks for whole units. -/
def Mode.Undoes (m : Mode) : Prop :=
  ∀ (k : SubkeySet) (cs : Block) (u : Bits), (m.aligned = true → u.length = m.width) → u.length ≤ m.width →
    m.next .dec k cs (m.out .enc k cs u) = m.next .enc k cs u ∧ m.out .dec k cs (m.out .enc k cs u) = u

theorem Mode.ecb_undoes : Mode.ecb.Undoes := by
  intro k cs u hu _
  refine ⟨rfl, ?_⟩
  show toBits (blockEngine k .dec (ofBits 64 (toBits (blockEngine k .enc (ofBits 64 u))))) = u
  rw [ofBits_toBits, blockEngine_dec_enc, toBits_ofBits (w := 64) (hu rfl)]

theorem Mode.cbc_undoes : Mode.cbc.Undoes := by
  intro k cs u hu _
  refine ⟨ofBits_toBits _, ?_⟩
  show toBits (blockEngine k .dec (ofBits 64 (toBits (blockEngine k .enc (ofBits 64 u ^^^ cs)))) ^^^ cs) = u
  rw [ofBits_toBits, blockEngine_dec_enc, BitVec.xor_assoc, BitVec.xor_self, BitVec.xor_zero,
    toBits_ofBits (w := 64) (hu rfl)]

theorem Mode.cfb_undoes : Mode.cfb.Undoes := fun k cs _ _ hu =>
  ⟨rfl, streamOut_streamOut k cs (Nat.le_trans hu (by decide))⟩

theorem Mode.ofb_undoes : Mode.ofb.Undoes := fun k cs _ _ hu => ⟨rfl, streamOut_streamOut k cs hu⟩

theorem Mode.ctr_undoes : Mode.ctr.Undoes := fun k cs _ _ hu => ⟨rfl, streamOut_streamOut k cs hu⟩

/-- A mode that does not load CS from IVREG leaves CS alone. -/
def Mode.KeepsUnloadedChain (m : Mode) : Prop :=
  m.chained = false → ∀ dir k, m.next dir k = fun cs _ => cs

/-- The loop of a mode's decryption on what its encryption left, under the same subkeys and from the same chaining
value, gives back the stream (R221). -/
theorem Mode.Finishes.round_trip {m : Mode} (hw : 0 < m.width) (hundo : m.Undoes) {s t s' t' : State}
    (hE : m.Finishes .enc s t) (hD : m.Finishes .dec s' t') (haccepts : m.Accepts s.din) (hdin : s'.din = t.dout)
    (hk : s'.k = s.k) (hcs : (m.start s').cs = (m.start s).cs) : t'.dout = s.din := by
  obtain ⟨input, hE⟩ := hE
  obtain ⟨input', hD⟩ := hD
  rw [hk] at hD
  have hstart := m.start_din s
  refine (loop_round_trip hw hE hD (by rw [m.start_din, hdin]) hcs fun i hi cs => ?unit).trans hstart
  case unit =>
    refine hundo s.k cs _ (fun ha => ?whole) ?short
    case whole => exact length_unitAt_full hw (hstart ▸ haccepts ha) hi
    case short => rw [length_unitAt]; exact Nat.min_le_left _ _

/-- The decryption of a mode starts from the chaining value its encryption started from: IVREG, or the CS that the mode
does not touch. -/
theorem Mode.Finishes.start_cs_after {m : Mode} (hchain : m.KeepsUnloadedChain) {dir : Direction} {s t s' : State}
    (h : m.Finishes dir s t) (hivreg : s'.ivreg = t.ivreg) (hcs : s'.cs = t.cs) :
    (m.start s').cs = (m.start s).cs := by
  obtain ⟨-, -, hiv, -⟩ := h.unwritten
  obtain ⟨input, hloop⟩ := h
  rw [m.start_cs s', hivreg, hiv, hcs, hloop.chain]
  cases hc : m.chained with
  | true => simp [m.start_cs, hc]
  | false => simp [hchain hc, chainAt_const]

/-- LOAD P, the mode's encryption, MOV and its decryption end with P in DOUT (R221). -/
theorem Mode.Runs.run_round_trip {m : Mode} (hm : m.Runs) (hundo : m.Undoes) (hchain : m.KeepsUnloadedChain)
    {s : State} {P : Bits} {rest : List HostEvent} (hk : s.kvalid = true) (hcap : withinCapacity P.length = true)
    (hP : m.Accepts P)
    (hpending : s.pending = .load P :: .issue (encode (m.command .enc)) :: .issue 0xA0 ::
      .issue (encode (m.command .dec)) :: rest) :
    ∃ t, core.run 4 s = .next t ∧ t.dout = P ∧ t.err = 0 ∧ t.k = s.k ∧ t.kvalid = true ∧ t.ivreg = s.ivreg ∧
      t.pending = rest := by
  obtain ⟨hw, hrun⟩ := hm
  obtain ⟨t, ht, hE⟩ := hrun .enc
    { s with pending := .issue 0xA0 :: .issue (encode (m.command .dec)) :: rest, din := P } hk hP
  obtain ⟨htk, htkvalid, htivreg, htpending⟩ := hE.unwritten
  have htdout : m.Accepts t.dout := fun ha => by rw [hE.length_dout hw]; exact hP ha
  obtain ⟨u, hu, hD⟩ := hrun .dec { t with pending := rest, din := t.dout, err := 0 } (htkvalid.trans hk) htdout
  obtain ⟨huk, hukvalid, huivreg, hupending⟩ := hD.unwritten
  refine ⟨succeed u, ?run, ?dout, rfl, huk.trans htk, (hukvalid.trans htkvalid).trans hk, huivreg.trans htivreg,
    hupending⟩
  case run =>
    rw [run_load hpending hcap, run_issue rfl (decodeWord_encode _) ht, run_mov (s := succeed t) htpending,
      run_issue rfl (decodeWord_encode _) hu]
    rfl
  case dout =>
    show u.dout = P
    exact hE.round_trip hw hundo hD hP rfl htk (hE.start_cs_after hchain rfl rfl)

/-- Settles O38: each line of the list is a mode, whose decryption undoes its encryption unit by unit. -/
theorem decryptionUndoesEncryptionInEveryMode : Obligations.DecryptionUndoesEncryptionInEveryMode := by
  unfold Obligations.DecryptionUndoesEncryptionInEveryMode
  intro s P rest hk hcap m hm hP hpending
  simp only [List.mem_cons, List.not_mem_nil, or_false] at hm
  obtain rfl | rfl | rfl | rfl | rfl := hm
  · exact Mode.ecb_runs.run_round_trip Mode.ecb_undoes (fun _ _ _ => rfl) hk hcap hP hpending
  · exact Mode.cbc_runs.run_round_trip Mode.cbc_undoes nofun hk hcap hP hpending
  · exact Mode.cfb_runs.run_round_trip Mode.cfb_undoes nofun hk hcap nofun hpending
  · exact Mode.ofb_runs.run_round_trip Mode.ofb_undoes nofun hk hcap nofun hpending
  · exact Mode.ctr_runs.run_round_trip Mode.ctr_undoes nofun hk hcap nofun hpending

/-! ### Two equal blocks -/

theorem blockAt_append_left (b : Block) (stream : Bits) : blockAt (toBits b ++ stream) 0 = b := by
  rw [blockAt, Nat.mul_zero, List.drop_zero, List.take_left' (length_toBits b), ofBits_toBits]

theorem blockAt_append_right (b b' : Block) : blockAt (toBits b ++ toBits b') 1 = b' := by
  rw [blockAt, Nat.mul_one, List.drop_left' (length_toBits b), List.take_of_length_le (length_toBits b').le,
    ofBits_toBits]

/-- Settles O39: the blocks by ECB's and CBC's rules; the engine is injective, so two CBC blocks are equal only if what
was chained into them is. -/
theorem ecbRepeatsAndCbcDoesNot : Obligations.EcbRepeatsAndCbcDoesNot := by
  unfold Obligations.EcbRepeatsAndCbcDoesNot
  intro s b hk hdin
  have hfirst : blockAt s.din 0 = b := by rw [hdin, blockAt_append_left]
  have hsecond : blockAt s.din 1 = b := by rw [hdin, blockAt_append_right]
  have hlen : s.din.length = 128 := by simp [hdin]
  have haligned : s.din.length % 64 = 0 := by rw [hlen]
  have hblocks : s.din.length / 64 = 2 := by rw [hlen]
  constructor
  · obtain ⟨t, ht, -, hecb, -⟩ := (ecbTransformsEachBlockAlone s _ (List.mem_cons_self ..)).1 hk haligned
    rw [hblocks] at hecb
    exact ⟨t, ht, by rw [hecb 0 (by decide), hecb 1 (by decide), hfirst, hsecond]⟩
  · obtain ⟨t, ht, -, hcbc, -⟩ := (cbcEncryptChainsOnTheOutput s).1 hk haligned
    rw [hblocks] at hcbc
    have h0 := hcbc 0 (by decide)
    have h1 := hcbc 1 (by decide)
    rw [hfirst, if_pos rfl] at h0
    rw [hsecond, if_neg (by decide)] at h1
    refine ⟨t, ht, h0, h1, ?iff⟩
    case iff =>
      calc blockAt t.dout 0 = blockAt t.dout 1
          ↔ blockEngine s.k .enc (b ^^^ s.ivreg) = blockEngine s.k .enc (b ^^^ blockAt t.dout 0) := by rw [← h0, ← h1]
        _ ↔ b ^^^ s.ivreg = b ^^^ blockAt t.dout 0 := (blockEngine_enc_injective s.k).eq_iff
        _ ↔ s.ivreg = blockAt t.dout 0 := BitVec.xor_right_inj b
        _ ↔ blockAt t.dout 0 = s.ivreg := eq_comm

/-! ### A stream cut in two -/

/-- A stream cut at a unit boundary: the second part continues from the chaining value the first ended with, in a mode
that loads it from IVREG; a mode whose output ignores it continues from any (R289). -/
theorem Mode.Runs.exec_split {m : Mode} (hm : m.Runs) (dir : Direction) {s : State} {X Y : Bits} {n : Nat}
    (hk : s.kvalid = true) (hX : X.length = m.width * n) (hY : m.Accepts Y) (iv : Bits → Block)
    (hiv : (m.chained = true ∧ ∀ t, m.Finishes dir { s with din := X } t →
        iv t.dout = chainAt m.width (m.next dir s.k) X s.ivreg n) ∨
      ∀ c c' u, m.out dir s.k c u = m.out dir s.k c' u) :
    ∃ t u v, exec (m.command dir) { s with din := X ++ Y } = .next t ∧
      exec (m.command dir) { s with din := X } = .next u ∧
      exec (m.command dir) { s with din := Y, ivreg := iv u.dout } = .next v ∧ t.dout = u.dout ++ v.dout := by
  obtain ⟨hw, hrun⟩ := hm
  have hXaccepts : m.Accepts X := fun _ => by rw [hX, Nat.mul_mod_right]
  have hXYaccepts : m.Accepts (X ++ Y) := fun ha => by
    rw [List.length_append, hX, Nat.mul_add_mod_self_left, hY ha]
  obtain ⟨t, ht, inputT, hT⟩ := hrun dir { s with din := X ++ Y } hk hXYaccepts
  obtain ⟨u, hu, hU⟩ := hrun dir { s with din := X } hk hXaccepts
  obtain ⟨v, hv, inputV, hV⟩ := hrun dir { s with din := Y, ivreg := iv u.dout } hk hY
  refine ⟨succeed t, succeed u, succeed v, ht, hu, hv, ?joined⟩
  case joined =>
    have hmid : (m.start { s with din := Y, ivreg := iv u.dout }).cs =
        chainAt m.width (m.next dir s.k) X (m.start { s with din := X ++ Y }).cs n ∨
        ∀ c c' u, m.out dir s.k c u = m.out dir s.k c' u := by
      refine hiv.imp_left fun ⟨hc, hiv⟩ => ?_
      simp only [m.start_cs, hc, if_true]
      exact hiv u hU
    obtain ⟨inputU, hU⟩ := hU
    have hcs : (m.start { s with din := X }).cs = (m.start { s with din := X ++ Y }).cs := by
      rw [m.start_cs, m.start_cs]
    rw [m.start_din] at hT hU hV
    show t.dout = u.dout ++ v.dout
    exact loop_split hw hX hT hU hV (m.start_din _) (m.start_din _) (m.start_din _) hcs hmid

/-- Settles O40: the value named is the chaining value after the first part: the last output block, the last input
block, the counter after as many blocks; ECB's output ignores it. -/
theorem splitStreamsContinueFromTheNamedIv : Obligations.SplitStreamsContinueFromTheNamedIv := by
  unfold Obligations.SplitStreamsContinueFromTheNamedIv
  intro s iv X Y hk haligned hpos m counter
  have hX : X.length = 64 * m := (Nat.mul_div_cancel' (Nat.dvd_of_mod_eq_zero haligned)).symm
  have hm : m ≠ 0 := by omega
  have hcbcEnc : ∀ t, Mode.cbc.Finishes .enc { s with din := X } t →
      blockAt t.dout (m - 1) = chainAt 64 (Mode.cbc.next .enc s.k) X s.ivreg m := by
    rintro t ⟨input, hloop⟩
    have hcount : unitCount 64 X.length = m := unitCount_dvd (by decide) haligned
    have hlast := hloop.chainAt_output (f := Mode.cbc.next .enc s.k) hcount.ge
    exact (hlast.trans (if_neg hm)).symm
  have hcbcDec : blockAt X (m - 1) = chainAt 64 (Mode.cbc.next .dec s.k) X s.ivreg m :=
    ((chainAt_input X s.ivreg m).trans (if_neg hm)).symm
  have hctr : ∀ dir, counter = chainAt 64 (Mode.ctr.next dir s.k) X s.ivreg m := fun _ =>
    (chainAt_counter X s.ivreg m).symm
  intro p hp hY
  simp only [List.mem_cons, List.not_mem_nil, or_false] at hp
  obtain rfl | rfl | rfl | rfl | rfl | rfl := hp
  · exact Mode.ecb_runs.exec_split .enc hk hX hY _ (.inr fun _ _ _ => rfl)
  · exact Mode.ecb_runs.exec_split .dec hk hX hY _ (.inr fun _ _ _ => rfl)
  · exact Mode.cbc_runs.exec_split .enc hk hX hY (fun out => blockAt out (m - 1)) (.inl ⟨rfl, hcbcEnc⟩)
  · exact Mode.cbc_runs.exec_split .dec hk hX hY _ (.inl ⟨rfl, fun _ _ => hcbcDec⟩)
  · exact Mode.ctr_runs.exec_split .enc hk hX nofun _ (.inl ⟨rfl, fun _ _ => hctr .enc⟩)
  · exact Mode.ctr_runs.exec_split .dec hk hX nofun _ (.inl ⟨rfl, fun _ _ => hctr .dec⟩)

/-- The register after a CFB stream of at least 64 ciphertext bits is the last 64 of them (R214, R289). -/
theorem register_after {c : Bits} {n : Nat} (hc : c.length = 8 * n) (hn : 8 ≤ n) (iv : Block) :
    chainAt 8 shiftIn c iv n = ofBits 64 (c.drop (c.length - 64)) := by
  rw [← ofBits_toBits (chainAt 8 shiftIn c iv n), toBits_register_late c iv n hn hc.ge, ← hc, List.take_length]

/-- Settles O41: the register after the first part is its last 64 ciphertext bits, which are output bits to encrypt and
input bits to decrypt. -/
theorem splitCfbStreamsContinueFromTheLastCiphertext : Obligations.SplitCfbStreamsContinueFromTheLastCiphertext := by
  unfold Obligations.SplitCfbStreamsContinueFromTheLastCiphertext
  intro s X Y hk haligned hlong p hp
  have hX : X.length = 8 * (X.length / 8) := (Nat.mul_div_cancel' (Nat.dvd_of_mod_eq_zero haligned)).symm
  have hn : 8 ≤ X.length / 8 := by omega
  have henc : ∀ t, Mode.cfb.Finishes .enc { s with din := X } t →
      ofBits 64 (t.dout.drop (t.dout.length - 64)) =
        chainAt 8 (Mode.cfb.next .enc s.k) X s.ivreg (X.length / 8) := by
    intro t hdone
    have hlen : t.dout.length = 8 * (X.length / 8) := (hdone.length_dout (by decide)).trans hX
    have hcount : unitCount 8 X.length = X.length / 8 := unitCount_dvd (by decide) haligned
    obtain ⟨input, hloop⟩ := hdone
    rw [← register_after hlen hn s.ivreg]
    exact (chainAt_cfb_enc hloop.units _ hcount.ge).symm
  have hdec : ofBits 64 (X.drop (X.length - 64)) =
      chainAt 8 (Mode.cfb.next .dec s.k) X s.ivreg (X.length / 8) := (register_after hX hn s.ivreg).symm
  simp only [List.mem_cons, List.not_mem_nil, or_false] at hp
  obtain rfl | rfl := hp
  · exact Mode.cfb_runs.exec_split .enc hk hX nofun (fun out => ofBits 64 (out.drop (out.length - 64)))
      (.inl ⟨rfl, henc⟩)
  · exact Mode.cfb_runs.exec_split .dec hk hX nofun (fun _ => ofBits 64 (X.drop (X.length - 64)))
      (.inl ⟨rfl, fun _ _ => hdec⟩)

/-! ### Another IVREG -/

/-- Two loops of one mode on one stream, whose chaining values agree from unit `n` on, have outputs that agree from that
unit on. -/
theorem Mode.Finishes.drop_dout {m : Mode} (hw : 0 < m.width) {dir : Direction} {s s' t t' : State} {n : Nat}
    (h : m.Finishes dir s t) (h' : m.Finishes dir s' t') (hdin : s'.din = s.din) (hk : s'.k = s.k)
    (hchain : ∀ i, n ≤ i → m.width * i < s.din.length →
      chainAt m.width (m.next dir s.k) s.din (m.start s').cs i =
        chainAt m.width (m.next dir s.k) s.din (m.start s).cs i) :
    t'.dout.drop (m.width * n) = t.dout.drop (m.width * n) := by
  have hlen : t.dout.length = s.din.length := h.length_dout hw
  have hlen' : t'.dout.length = s.din.length := (h'.length_dout hw).trans (congrArg List.length hdin)
  obtain ⟨input, hloop⟩ := h
  obtain ⟨input', hloop'⟩ := h'
  refine drop_ext hw (hlen'.trans hlen.symm) fun i hn hi => ?unit
  case unit =>
    rw [hlen'] at hi
    have hunit := hloop.units i (by rwa [m.start_din])
    have hunit' := hloop'.units i (by rwa [m.start_din, hdin])
    rw [m.start_din] at hunit hunit'
    rw [hunit, hunit', hdin, hk, hchain i hn ((lt_unitCount hw).1 hi)]

/-- A mode's command under two IVREG values: outputs of one length, which agree from unit `n` on when the chaining
values do. -/
theorem Mode.Runs.exec_other_ivreg {m : Mode} (hm : m.Runs) (dir : Direction) {s : State} (iv : Block) {n : Nat}
    (hk : s.kvalid = true) (haccepts : m.Accepts s.din)
    (hchain : ∀ i, n ≤ i → m.width * i < s.din.length → ∀ cs cs',
      chainAt m.width (m.next dir s.k) s.din cs i = chainAt m.width (m.next dir s.k) s.din cs' i) :
    ∃ t u, exec (m.command dir) s = .next t ∧ exec (m.command dir) { s with ivreg := iv } = .next u ∧
      t.dout.length = u.dout.length ∧ u.dout.drop (m.width * n) = t.dout.drop (m.width * n) := by
  obtain ⟨hw, hrun⟩ := hm
  obtain ⟨t, ht, hT⟩ := hrun dir s hk haccepts
  obtain ⟨u, hu, hU⟩ := hrun dir { s with ivreg := iv } hk haccepts
  have hlen : t.dout.length = u.dout.length := (hT.length_dout hw).trans (hU.length_dout hw).symm
  have hdrop := hT.drop_dout hw hU rfl rfl fun i hn hi => hchain i hn hi _ _
  exact ⟨_, _, ht, hu, hlen, hdrop⟩

/-- The first block of CBC decryption, the one IVREG reaches (R213). -/
theorem cbcDec_first_block {s t : State} (hk : s.kvalid = true) (haligned : s.din.length % 64 = 0)
    (hpos : 0 < s.din.length) (h : exec .xfCbcDec s = .next t) :
    blockAt t.dout 0 = blockEngine s.k .dec (blockAt s.din 0) ^^^ s.ivreg := by
  obtain ⟨t', ht', -, hblocks, -⟩ := (cbcDecryptChainsOnTheInput s).1 hk haligned
  cases ht'.symm.trans h
  exact hblocks 0 (by omega)

/-- Settles O42: IVREG reaches the first CBC block by an XOR and no later block, each chained with the input block
before it; from the eighth segment on the CFB register holds ciphertext alone. -/
theorem wrongIvSpoilsOnlyTheStart : Obligations.WrongIvSpoilsOnlyTheStart := by
  unfold Obligations.WrongIvSpoilsOnlyTheStart
  refine fun s iv hk => ⟨fun haligned => ?cbc, ?cfb⟩
  case cbc =>
    have hchain : ∀ i, 1 ≤ i → 64 * i < s.din.length → ∀ cs cs',
        chainAt 64 (Mode.cbc.next .dec s.k) s.din cs i = chainAt 64 (Mode.cbc.next .dec s.k) s.din cs' i := by
      intro i hi _ cs cs'
      have hne : i ≠ 0 := by omega
      exact ((chainAt_input _ _ i).trans (if_neg hne)).trans ((chainAt_input _ _ i).trans (if_neg hne)).symm
    obtain ⟨t, u, ht, hu, hlen, hdrop⟩ := Mode.cbc_runs.exec_other_ivreg .dec iv hk (fun _ => haligned) hchain
    refine ⟨t, u, ht, hu, hlen, fun hpos => ?first, hdrop⟩
    case first =>
      rw [cbcDec_first_block hk haligned hpos ht, cbcDec_first_block (s := { s with ivreg := iv }) hk haligned hpos hu,
        BitVec.xor_assoc (z := s.ivreg), BitVec.xor_self, BitVec.xor_zero]
  case cfb =>
    have hchain : ∀ i, 8 ≤ i → 8 * i < s.din.length → ∀ cs cs',
        chainAt 8 (Mode.cfb.next .dec s.k) s.din cs i = chainAt 8 (Mode.cfb.next .dec s.k) s.din cs' i :=
      fun i hi hlen cs cs' => toBits_injective ((toBits_register_late s.din cs i hi hlen.le).trans
        (toBits_register_late s.din cs' i hi hlen.le).symm)
    exact Mode.cfb_runs.exec_other_ivreg .dec iv hk nofun hchain

end Sys2Proof.Machine
end
